-- ==== Sys2Proof/Word.lean ====
section
/-! DEFINITION. The widths of the machine's values (00_scope.md R4, 30_encoding.md R51). -/

namespace Sys2Proof

/-- One byte of memory, one V register, one timer (`V_WIDTH`, `TIMER_WIDTH`). -/
abbrev Byte := BitVec 8

/-- An instruction word, the index register, the program counter, a stack slot (`I_WIDTH`, `PC_WIDTH`). -/
abbrev Word := BitVec 16

/-- The fields `op` and `n` of an instruction word. -/
abbrev Nibble := BitVec 4

/-- The field `nnn` of an instruction word: an address constant. -/
abbrev Addr12 := BitVec 12

/-- The number of a V register, which the fields `x` and `y` give: every value names one (R53). -/
abbrev RegIdx := Fin 16

/-- The number of a logical key, 0x0 to 0xF (`NUM_KEYS`). -/
abbrev Key := Fin 16

end Sys2Proof
end

