-- ==== Sys2Proof/Syntax.lean ====
section
/-! DEFINITION. The 35 instructions of 30_encoding.md R55, one constructor for each row of spec/opcode_table.json. -/

namespace Sys2Proof

/-- An instruction with its fields (R51, R52). `shr` and `shl` keep the `y` nibble that they ignore (R59, log 22). -/
inductive Instr where
  | cls
  | ret
  | sys (nnn : Addr12)
  | jp (nnn : Addr12)
  | call (nnn : Addr12)
  | seImm (x : RegIdx) (kk : Byte)
  | sneImm (x : RegIdx) (kk : Byte)
  | seReg (x y : RegIdx)
  | ldImm (x : RegIdx) (kk : Byte)
  | addImm (x : RegIdx) (kk : Byte)
  | ldReg (x y : RegIdx)
  | orReg (x y : RegIdx)
  | andReg (x y : RegIdx)
  | xorReg (x y : RegIdx)
  | addf (x y : RegIdx)
  | sub (x y : RegIdx)
  | shr (x y : RegIdx)
  | subn (x y : RegIdx)
  | shl (x y : RegIdx)
  | sneReg (x y : RegIdx)
  | ldI (nnn : Addr12)
  | jpV0 (nnn : Addr12)
  | rnd (x : RegIdx) (kk : Byte)
  | drw (x y : RegIdx) (n : Nibble)
  | skp (x : RegIdx)
  | sknp (x : RegIdx)
  | ldVxDt (x : RegIdx)
  | ldVxK (x : RegIdx)
  | ldDtVx (x : RegIdx)
  | ldStVx (x : RegIdx)
  | addI (x : RegIdx)
  | ldF (x : RegIdx)
  | ldB (x : RegIdx)
  | stRegs (x : RegIdx)
  | ldRegs (x : RegIdx)
  deriving DecidableEq, Repr

end Sys2Proof
end

