-- ==== Sys2Proof/Decode.lean ====
section
/-! DEFINITION. The decoder of 30_encoding.md R54, total on any two bytes, and the encoder from the formats of R52;
the opcode map of R55 as a list of rows. -/

namespace Sys2Proof

/-- `word = (b0, b1)`: the byte at PC is the high byte (R33, R50). -/
def wordOf (b0 b1 : Byte) : Word := b0 ++ b1

/-- Bits 15:8 of a word: the byte at the lower address (R33). -/
def highByte (w : Word) : Byte := w.extractLsb' 8 8

/-- Bits 7:0 of a word. -/
def lowByte (w : Word) : Byte := w.extractLsb' 0 8

/-- The field `op`, bits 15:12 (R51). -/
def fieldOp (w : Word) : Nibble := w.extractLsb' 12 4

/-- The field `x`, bits 11:8, as a register number (R51). -/
def fieldX (w : Word) : RegIdx := (w.extractLsb' 8 4).toFin

/-- The field `y`, bits 7:4, as a register number (R51). -/
def fieldY (w : Word) : RegIdx := (w.extractLsb' 4 4).toFin

/-- The field `n`, bits 3:0 (R51). -/
def fieldN (w : Word) : Nibble := w.extractLsb' 0 4

/-- The field `kk`, bits 7:0 (R51). -/
def fieldKk (w : Word) : Byte := w.extractLsb' 0 8

/-- The field `nnn`, bits 11:0 (R51). -/
def fieldNnn (w : Word) : Addr12 := w.extractLsb' 0 12

/-- Why the decoder refuses (R54, R56): the offending raw bytes. -/
inductive DecodeReject where
  | decodeError (b0 b1 : Byte)
  deriving DecidableEq, Repr

/-- Family 8: the sub-operation is an exact match on `n` (R54). -/
def decodeFamily8 (x y : RegIdx) (n : Nat) : Option Instr :=
  match n with
  | 0x0 => some (.ldReg x y)
  | 0x1 => some (.orReg x y)
  | 0x2 => some (.andReg x y)
  | 0x3 => some (.xorReg x y)
  | 0x4 => some (.addf x y)
  | 0x5 => some (.sub x y)
  | 0x6 => some (.shr x y)
  | 0x7 => some (.subn x y)
  | 0xE => some (.shl x y)
  | _ => none

/-- Family E: the sub-operation is an exact match on `kk` (R54). -/
def decodeFamilyE (x : RegIdx) (kk : Nat) : Option Instr :=
  match kk with
  | 0x9E => some (.skp x)
  | 0xA1 => some (.sknp x)
  | _ => none

/-- Family F: the sub-operation is an exact match on `kk` (R54). -/
def decodeFamilyF (x : RegIdx) (kk : Nat) : Option Instr :=
  match kk with
  | 0x07 => some (.ldVxDt x)
  | 0x0A => some (.ldVxK x)
  | 0x15 => some (.ldDtVx x)
  | 0x18 => some (.ldStVx x)
  | 0x1E => some (.addI x)
  | 0x29 => some (.ldF x)
  | 0x33 => some (.ldB x)
  | 0x55 => some (.stRegs x)
  | 0x65 => some (.ldRegs x)
  | _ => none

/-- The algorithm of R54 on the assembled word: first match wins. Families 5 and 9 ask for `n = 0` (log 12). -/
def decodeWord (w : Word) : Option Instr :=
  match (fieldOp w).toNat with
  | 0x0 => if w = 0x00E0 then some .cls else if w = 0x00EE then some .ret else some (.sys (fieldNnn w))
  | 0x1 => some (.jp (fieldNnn w))
  | 0x2 => some (.call (fieldNnn w))
  | 0x3 => some (.seImm (fieldX w) (fieldKk w))
  | 0x4 => some (.sneImm (fieldX w) (fieldKk w))
  | 0x5 => if fieldN w = 0 then some (.seReg (fieldX w) (fieldY w)) else none
  | 0x6 => some (.ldImm (fieldX w) (fieldKk w))
  | 0x7 => some (.addImm (fieldX w) (fieldKk w))
  | 0x8 => decodeFamily8 (fieldX w) (fieldY w) (fieldN w).toNat
  | 0x9 => if fieldN w = 0 then some (.sneReg (fieldX w) (fieldY w)) else none
  | 0xA => some (.ldI (fieldNnn w))
  | 0xB => some (.jpV0 (fieldNnn w))
  | 0xC => some (.rnd (fieldX w) (fieldKk w))
  | 0xD => some (.drw (fieldX w) (fieldY w) (fieldN w))
  | 0xE => decodeFamilyE (fieldX w) (fieldKk w).toNat
  | 0xF => decodeFamilyF (fieldX w) (fieldKk w).toNat
  | _ => none

/-- `Decode(b0, b1)` of R54: one of the 35 instructions, or the decode error with the raw bytes. -/
def decode (b0 b1 : Byte) : Except DecodeReject Instr :=
  match decodeWord (wordOf b0 b1) with
  | some i => .ok i
  | none => .error (.decodeError b0 b1)

/-- Format NNN of R52. -/
def formatNnn (op : Nibble) (nnn : Addr12) : Word := op ++ nnn

/-- Format XKK of R52; format X is the one with a literal `kk`. -/
def formatXkk (op : Nibble) (x : RegIdx) (kk : Byte) : Word := (op ++ BitVec.ofFin (w := 4) x) ++ kk

/-- Format XY of R52 with its sub-operation, and format XYN. -/
def formatXyn (op : Nibble) (x y : RegIdx) (n : Nibble) : Word :=
  (op ++ BitVec.ofFin (w := 4) x) ++ (BitVec.ofFin (w := 4) y ++ n)

/-- The instruction word, from the patterns of R55. -/
def encodeWord : Instr → Word
  | .cls => 0x00E0
  | .ret => 0x00EE
  | .sys nnn => formatNnn 0x0 nnn
  | .jp nnn => formatNnn 0x1 nnn
  | .call nnn => formatNnn 0x2 nnn
  | .seImm x kk => formatXkk 0x3 x kk
  | .sneImm x kk => formatXkk 0x4 x kk
  | .seReg x y => formatXyn 0x5 x y 0x0
  | .ldImm x kk => formatXkk 0x6 x kk
  | .addImm x kk => formatXkk 0x7 x kk
  | .ldReg x y => formatXyn 0x8 x y 0x0
  | .orReg x y => formatXyn 0x8 x y 0x1
  | .andReg x y => formatXyn 0x8 x y 0x2
  | .xorReg x y => formatXyn 0x8 x y 0x3
  | .addf x y => formatXyn 0x8 x y 0x4
  | .sub x y => formatXyn 0x8 x y 0x5
  | .shr x y => formatXyn 0x8 x y 0x6
  | .subn x y => formatXyn 0x8 x y 0x7
  | .shl x y => formatXyn 0x8 x y 0xE
  | .sneReg x y => formatXyn 0x9 x y 0x0
  | .ldI nnn => formatNnn 0xA nnn
  | .jpV0 nnn => formatNnn 0xB nnn
  | .rnd x kk => formatXkk 0xC x kk
  | .drw x y n => formatXyn 0xD x y n
  | .skp x => formatXkk 0xE x 0x9E
  | .sknp x => formatXkk 0xE x 0xA1
  | .ldVxDt x => formatXkk 0xF x 0x07
  | .ldVxK x => formatXkk 0xF x 0x0A
  | .ldDtVx x => formatXkk 0xF x 0x15
  | .ldStVx x => formatXkk 0xF x 0x18
  | .addI x => formatXkk 0xF x 0x1E
  | .ldF x => formatXkk 0xF x 0x29
  | .ldB x => formatXkk 0xF x 0x33
  | .stRegs x => formatXkk 0xF x 0x55
  | .ldRegs x => formatXkk 0xF x 0x65

/-- The two bytes of an instruction as they lie in memory, the first at the lower address (R33). -/
def encode (i : Instr) : Byte × Byte := (highByte (encodeWord i), lowByte (encodeWord i))

/-- A row of the opcode map: its number, and the words `w` with `w &&& mask = bits` (R55). -/
structure OpcodeRow where
  number : Nat
  mask : Word
  bits : Word
  deriving DecidableEq, Repr

/-- Whether a word is one the row's mask and match select (R55). -/
def OpcodeRow.selects (r : OpcodeRow) (w : Word) : Bool := w &&& r.mask == r.bits

/-- Rows 1 to 20 of R55, in its order, which is the priority order of R54. -/
def opcodeRowsLow : List OpcodeRow :=
  [⟨1, 0xFFFF, 0x00E0⟩, ⟨2, 0xFFFF, 0x00EE⟩, ⟨3, 0xF000, 0x0000⟩, ⟨4, 0xF000, 0x1000⟩, ⟨5, 0xF000, 0x2000⟩,
   ⟨6, 0xF000, 0x3000⟩, ⟨7, 0xF000, 0x4000⟩, ⟨8, 0xF00F, 0x5000⟩, ⟨9, 0xF000, 0x6000⟩, ⟨10, 0xF000, 0x7000⟩,
   ⟨11, 0xF00F, 0x8000⟩, ⟨12, 0xF00F, 0x8001⟩, ⟨13, 0xF00F, 0x8002⟩, ⟨14, 0xF00F, 0x8003⟩,
   ⟨15, 0xF00F, 0x8004⟩, ⟨16, 0xF00F, 0x8005⟩, ⟨17, 0xF00F, 0x8006⟩, ⟨18, 0xF00F, 0x8007⟩,
   ⟨19, 0xF00F, 0x800E⟩, ⟨20, 0xF00F, 0x9000⟩]

/-- Rows 21 to 35 of R55. -/
def opcodeRowsHigh : List OpcodeRow :=
  [⟨21, 0xF000, 0xA000⟩, ⟨22, 0xF000, 0xB000⟩, ⟨23, 0xF000, 0xC000⟩, ⟨24, 0xF000, 0xD000⟩,
   ⟨25, 0xF0FF, 0xE09E⟩, ⟨26, 0xF0FF, 0xE0A1⟩, ⟨27, 0xF0FF, 0xF007⟩, ⟨28, 0xF0FF, 0xF00A⟩,
   ⟨29, 0xF0FF, 0xF015⟩, ⟨30, 0xF0FF, 0xF018⟩, ⟨31, 0xF0FF, 0xF01E⟩, ⟨32, 0xF0FF, 0xF029⟩,
   ⟨33, 0xF0FF, 0xF033⟩, ⟨34, 0xF0FF, 0xF055⟩, ⟨35, 0xF0FF, 0xF065⟩]

/-- The opcode map of R55. -/
def opcodeTable : List OpcodeRow := opcodeRowsLow ++ opcodeRowsHigh

/-- The number of an instruction's row in R55. -/
def Instr.rowNumber : Instr → Nat
  | .cls => 1
  | .ret => 2
  | .sys _ => 3
  | .jp _ => 4
  | .call _ => 5
  | .seImm _ _ => 6
  | .sneImm _ _ => 7
  | .seReg _ _ => 8
  | .ldImm _ _ => 9
  | .addImm _ _ => 10
  | .ldReg _ _ => 11
  | .orReg _ _ => 12
  | .andReg _ _ => 13
  | .xorReg _ _ => 14
  | .addf _ _ => 15
  | .sub _ _ => 16
  | .shr _ _ => 17
  | .subn _ _ => 18
  | .shl _ _ => 19
  | .sneReg _ _ => 20
  | .ldI _ => 21
  | .jpV0 _ => 22
  | .rnd _ _ => 23
  | .drw _ _ _ => 24
  | .skp _ => 25
  | .sknp _ => 26
  | .ldVxDt _ => 27
  | .ldVxK _ => 28
  | .ldDtVx _ => 29
  | .ldStVx _ => 30
  | .addI _ => 31
  | .ldF _ => 32
  | .ldB _ => 33
  | .stRegs _ => 34
  | .ldRegs _ => 35

/-- The instruction the decoder reads from the word `w` of spec/opcode_table.json: 16 bits, laid out high byte first. -/
def decodeTableWord (nbits w : Nat) : Option Instr :=
  if nbits ≤ 16 ∧ w < 2 ^ 16 then
    match decode (highByte (BitVec.ofNat 16 w)) (lowByte (BitVec.ofNat 16 w)) with
    | .ok i => some i
    | .error _ => none
  else none

end Sys2Proof
end

