-- ==== Sys2Proof/Config.lean ====
section
/-! DEFINITION. The parameters of 00_scope.md R4 and R5, the font table of R182, and the free values. -/

namespace Sys2Proof

/-- `VF_WRITE_ORDER`: which of the two writes of a flag-writing ALU instruction lands last (R5, R84). -/
inductive VfWriteOrder where
  | flagThenResult
  | resultThenFlag
  deriving DecidableEq, Repr

/-- The parameters of R5 that a running machine reads. No step changes them (log 29). -/
structure Params where
  /-- `TPF`, ticks per frame: any natural, 0 included (R77). -/
  tpf : Nat
  vfWriteOrder : VfWriteOrder
  notifyZeroBits : Bool
  deriving DecidableEq, Repr

namespace Config

/-- `MEM_SIZE`. -/
abbrev memSize : Nat := 4096

/-- `PROG_BASE`. -/
abbrev progBase : Nat := 512

/-- `STACK_DEPTH`. -/
abbrev stackDepth : Nat := 16

/-- The sprites of the digits 0 to 7: the default of the parameter `FONT` (R182).
PRESUMED (log 3): the spec marks the byte values as general knowledge of the family. -/
def fontLow : List (List Byte) :=
  [[0xF0, 0x90, 0x90, 0x90, 0xF0], [0x20, 0x60, 0x20, 0x20, 0x70],
   [0xF0, 0x10, 0xF0, 0x80, 0xF0], [0xF0, 0x10, 0xF0, 0x10, 0xF0],
   [0x90, 0x90, 0xF0, 0x10, 0x10], [0xF0, 0x80, 0xF0, 0x10, 0xF0],
   [0xF0, 0x80, 0xF0, 0x90, 0xF0], [0xF0, 0x10, 0x20, 0x40, 0x40]]

/-- The sprites of the digits 8 to F (R182; PRESUMED, log 3). -/
def fontHigh : List (List Byte) :=
  [[0xF0, 0x90, 0xF0, 0x90, 0xF0], [0xF0, 0x90, 0xF0, 0x10, 0xF0],
   [0xF0, 0x90, 0xF0, 0x90, 0x90], [0xE0, 0x90, 0xE0, 0x90, 0xE0],
   [0xF0, 0x80, 0x80, 0x80, 0xF0], [0xE0, 0x90, 0x90, 0x90, 0xE0],
   [0xF0, 0x80, 0xF0, 0x80, 0xF0], [0xF0, 0x80, 0xF0, 0x80, 0x80]]

/-- The 80 bytes at addresses 0 to 79: digit `d` at `5 * d` (R36, R182). -/
def font : List Byte := fontLow.flatten ++ fontHigh.flatten

/-- The default value of the parameter `FONT`, as the 80 bytes a reset is given. -/
def fontDefault : Vector Byte 80 := ⟨⟨font⟩, by decide⟩

/-- The `TPF` a machine is reset with: the spec gives no value and no default (R5, N2). DESIGN CHOICE (log 7):
a free constant, safe. -/
opaque ticksPerFrame : Nat

/-- FREE VALUE (log 8, safe): the byte of the `n`-th draw `Rnd()` the host has not lined up (R166, U1). -/
opaque rnd : Nat → Byte

/-- FREE VALUE (log 8, safe): the answer of the `n`-th query `KeyHeld(k)` the host has not lined up (R164, U9). -/
opaque keyHeld : Nat → Byte → Bool

/-- FREE VALUE (log 8, log 9, safe): what the `n`-th poll of `KeyWait()` finds, a key or none yet (R142, U5, U10). -/
opaque keyWait : Nat → Option Key

/-- FREE VALUE (log 8, safe): the answer of the `n`-th `QuitRequested()` (R160). -/
opaque quitRequested : Nat → Bool

end Config
end Sys2Proof
end

