-- ==== Sys2Proof/Machine/State.lean ====
section
/-! DEFINITION. The state of the machine (10_state.md), the reasons a step can stop (60_exceptions.md), reset. -/

namespace Sys2Proof.Machine

/-- The fatal conditions of R150. A step that raises one answers the fault and no successor state, as R156 asks
(log 11, safe: nothing can be claimed of the state after it). -/
inductive Fault where
  /-- Raised by the decode phase on the illegal words of R56 (R151), with the offending bytes. Safe (log 12). -/
  | decodeError (b0 b1 : Byte)
  /-- Raised by CALL when 16 slots are in use (R152). Safe. -/
  | stackOverflow
  /-- Raised by RET when no slot is in use (R153). Safe. -/
  | stackUnderflow
  /-- Raised by the fetch at PC = 4095 and by DRW, LD_B, ST_REGS, LD_REGS at an address of 4096 or more (R154). Safe. -/
  | memoryOutOfRange (addr : Nat)
  /-- Raised by reset only, for a program of more than 3584 bytes (R155, R183). Safe. -/
  | programTooLarge (len : Nat)
  deriving DecidableEq, Repr

/-- Why a step has no meaning. The spec gives every instruction one, so no arm of `exec` uses it. -/
inductive Refusal where
  /-- Raised by an arm of `exec` for an instruction with no meaning yet. Safe. -/
  | notModelled (mnemonic : String)
  deriving DecidableEq, Repr

/-- `STATUS` (R18). -/
inductive Status where
  | run
  /-- The execute phase of the `Fx0A` with this `x` is blocked on `KeyWait()` (log 9). -/
  | waitKey (x : RegIdx)
  | haltPc
  | haltQuit
  | fatal (f : Fault)
  deriving DecidableEq, Repr

/-- Where `Frame()` of 40_execution_cycle.md section 3 stands while `STATUS` is `RUN` (log 10: the model's own). -/
inductive FramePhase where
  /-- Before the quit poll of R78. -/
  | poll
  /-- Before a tick of R77. -/
  | tick
  /-- Before the frame end of R79. -/
  | frameEnd
  deriving DecidableEq, Repr

/-- The events of the display event port (R134). -/
inductive Event where
  | pixelToggled (x : Fin 64) (y : Fin 32) (value : Bool)
  | cleared
  | framePresented
  deriving DecidableEq, Repr

/-- The grid of one-bit pixels (R16): 32 rows of 64 columns. -/
abbrev Display := Vector (Vector Bool 64) 32

/-- Memory as a sparse list of address and byte: addresses rising, no entry equal to what an unlisted address
reads as (`Memory.wf`). -/
abbrev Memory := List Host.Cell

/-- A host input (60_exceptions.md section 6): the answers the host has lined up, oldest first, and how many answers
it has given. Past the line the answer is a free value (log 8: the model's own). -/
structure Port (α : Type) where
  script : List α
  drawn : Nat
  deriving DecidableEq, Repr

/-- All state of 10_state.md; then the output stream, the parameters, the frame position and the host ports. -/
structure State where
  /-- `V[0..15]` (R10); VF is `v[15]` (R11). -/
  v : Vector Byte 16
  /-- `I` (R12). -/
  i : Word
  /-- `PC` (R13). -/
  pc : Word
  /-- `STACK[0..15]` (R14). -/
  stack : Vector Word 16
  /-- `SP`, the number of slots in use, 0 to 16 (R14). -/
  sp : Fin 17
  /-- `DT` (R15). -/
  dt : Byte
  /-- `ST` (R15). -/
  st : Byte
  /-- `DISP` (R16). -/
  disp : Display
  /-- `MEM` (R17). -/
  mem : Memory
  /-- `STATUS` (R18). -/
  status : Status
  /-- `TICK` (R19). -/
  tick : Nat
  /-- Where the frame stands (log 10). -/
  phase : FramePhase
  /-- The output event stream, oldest first (R134; log 19). -/
  events : List Event
  /-- The parameters of R5 (log 29). -/
  params : Params
  /-- `Rnd` (R166). -/
  rnd : Port Byte
  /-- `KeyHeld` (R164): one answer a query. -/
  keyHeld : Port Bool
  /-- `KeyWait` (R164): one entry a poll, a key or none yet. -/
  keyWait : Port (Option Key)
  /-- `QuitRequested` (R160). -/
  quit : Port Bool
  deriving DecidableEq, Repr

/-- What an execute phase or a step answers. -/
abbrev Result := Host.Outcome State Fault Refusal

/-- The machine right after reset (R180, R181), with no program bytes, the default parameters of R5, and memory that
lists nothing: every byte at its reset content. The register values are the spec's own decisions (log 1, log 2). -/
def State.reset : State where
  v := Vector.replicate 16 0
  i := 0
  pc := 0x200
  stack := Vector.replicate 16 0
  sp := 0
  dt := 0
  st := 0
  disp := Vector.replicate 32 (Vector.replicate 64 false)
  mem := []
  status := .run
  tick := 0
  phase := .poll
  events := []
  params := ⟨Config.ticksPerFrame, .flagThenResult, false⟩
  rnd := ⟨[], 0⟩
  keyHeld := ⟨[], 0⟩
  keyWait := ⟨[], 0⟩
  quit := ⟨[], 0⟩

end Sys2Proof.Machine
end

