-- ==== Sys2Proof/Machine/Memory.lean ====
section
/-! DEFINITION. The memory array: one byte read, one byte written, in canonical form (20_memory.md). -/

namespace Sys2Proof.Machine

/-- What an address that memory does not list reads as: its content at reset, the font at 0 to 79 and zero from 80
(R36, R41, R181; the font bytes are PRESUMED, log 3). -/
def Memory.unlisted (a : Nat) : Byte := Config.font.getD a 0

/-- `MEM[a]`. -/
def Memory.read : Memory → Nat → Byte
  | [], a => Memory.unlisted a
  | (b, w) :: m, a => if a = b then w else Memory.read m a

/-- The entry `(a, w)` put before `m`, or nothing where `w` is what `a` reads as unlisted. -/
def Memory.cons (a : Nat) (w : Byte) (m : Memory) : Memory :=
  if w = Memory.unlisted a then m else (a, w) :: m

/-- `MEM[a] <- w`, keeping the canonical form. -/
def Memory.write : Memory → Nat → Byte → Memory
  | [], a, w => Memory.cons a w []
  | (b, u) :: m, a, w =>
    if a < b then Memory.cons a w ((b, u) :: m)
    else if a = b then Memory.cons a w m
    else (b, u) :: Memory.write m a w

/-- The canonical form from address `lo` on: addresses strictly rising and below 4096, no entry equal to what its
address reads as unlisted. -/
def Memory.wfFrom (lo : Nat) : Memory → Bool
  | [] => true
  | (a, w) :: m =>
    decide (lo ≤ a) && decide (a < Config.memSize) && decide (w ≠ Memory.unlisted a) && Memory.wfFrom (a + 1) m

/-- The canonical form of memory. -/
def Memory.wf (m : Memory) : Bool := Memory.wfFrom 0 m

/-- The bytes of a buffer written from address `a` on (R41). -/
def Memory.load (a : Nat) : List Byte → Memory → Memory
  | [], m => m
  | w :: ws, m => Memory.load (a + 1) ws (Memory.write m a w)

end Sys2Proof.Machine
end

