-- ==== Sys2Proof/Machine/Ops.lean ====
section
/-! DEFINITION. The named operations over registers, stack, memory, display and ports (00_scope.md section 5), and the
raising of a fatal condition (60_exceptions.md R156). There is no return from one (R157). -/

namespace Sys2Proof.Machine

/-! ### One update for each piece of state -/

namespace State

/-- `V[r]` (R10). -/
def reg (s : State) (r : RegIdx) : Byte := s.v[r]

/-- `V[r] <- b` (R10): no register is hard-wired. -/
def setReg (s : State) (r : RegIdx) (b : Byte) : State := { s with v := s.v.set r b }

/-- `I <- w` (R12). -/
def setI (s : State) (w : Word) : State := { s with i := w }

/-- `PC <- target` (R13). -/
def setPc (s : State) (w : Word) : State := { s with pc := w }

/-- The slots and the pointer of the stack (R14). -/
def setStack (s : State) (st : Vector Word 16) (p : Fin 17) : State := { s with stack := st, sp := p }

/-- `DT <- b` (R15). -/
def setDt (s : State) (b : Byte) : State := { s with dt := b }

/-- `ST <- b` (R15). -/
def setSt (s : State) (b : Byte) : State := { s with st := b }

/-- The grid (R16). -/
def setDisp (s : State) (d : Display) : State := { s with disp := d }

/-- The memory array (R17). -/
def setMem (s : State) (m : Memory) : State := { s with mem := m }

/-- `STATUS <- x` (R18). -/
def setStatus (s : State) (x : Status) : State := { s with status := x }

/-- `TICK <- n` (R19). -/
def setTick (s : State) (n : Nat) : State := { s with tick := n }

/-- Where the frame stands (log 10). -/
def setPhase (s : State) (p : FramePhase) : State := { s with phase := p }

/-- `Emit(e)`: append to the one ordered output stream (R134). -/
def emit (s : State) (e : Event) : State := { s with events := s.events ++ [e] }

/-- The random port after a draw. -/
def setRnd (s : State) (p : Port Byte) : State := { s with rnd := p }

/-- The key query port after a query. -/
def setKeyHeld (s : State) (p : Port Bool) : State := { s with keyHeld := p }

/-- The key wait port after a poll. -/
def setKeyWait (s : State) (p : Port (Option Key)) : State := { s with keyWait := p }

/-- The quit port after a poll. -/
def setQuit (s : State) (p : Port Bool) : State := { s with quit := p }

end State

/-! ### Fatal conditions -/

/-- `raise f`: the machine stops with the fault and no successor state (R156; log 11). -/
def raise (f : Fault) : Result := .fault f

/-- The numeric code of a fatal condition (R150). The spec's decision D15: the numbers are labels that nothing reads
(log 11). -/
def Fault.code : Fault → Nat
  | .decodeError _ _ => 1
  | .stackOverflow => 2
  | .stackUnderflow => 3
  | .memoryOutOfRange _ => 4
  | .programTooLarge _ => 5

/-- `STATUS <- FATAL(f)`, the one thing an entry does (R156): the state the host finds after a reset that was refused,
and after the three precise conditions. -/
def State.enterFatal (s : State) (f : Fault) : State := s.setStatus (.fatal f)

/-- The end of an execute phase that may have raised a fatal condition. -/
def settle : Except Fault State → Result
  | .ok t => .next t
  | .error f => raise f

/-! ### Memory -/

/-- `MemRead(addr, 1)` (R31): bounds-checked, never wrapped. -/
def memRead (s : State) (a : Nat) : Except Fault Byte :=
  if a < Config.memSize then .ok (s.mem.read a) else .error (.memoryOutOfRange a)

/-- `MemWrite(addr, 1, w)` (R31): bounds-checked, never wrapped. -/
def memWrite (s : State) (a : Nat) (w : Byte) : Except Fault State :=
  if a < Config.memSize then .ok (s.setMem (s.mem.write a w)) else .error (.memoryOutOfRange a)

/-- `n` bytes read at `a`, `a + 1`, … in ascending order: the first address out of range is the one reported (R154). -/
def readBlock (s : State) : (a n : Nat) → Except Fault (List Byte)
  | _, 0 => .ok []
  | a, n + 1 =>
    match memRead s a with
    | .error f => .error f
    | .ok b =>
      match readBlock s (a + 1) n with
      | .error f => .error f
      | .ok bs => .ok (b :: bs)

/-- The bytes written at `a`, `a + 1`, … in ascending order: the first address out of range is the one reported (R154). -/
def writeBlock (s : State) (a : Nat) : List Byte → Except Fault State
  | [] => .ok s
  | w :: ws =>
    match memWrite s a w with
    | .error f => .error f
    | .ok t => writeBlock t (a + 1) ws

/-! ### Registers in sequence -/

/-- `V[0..x]` in ascending order (R124, R126). -/
def State.regsUpTo (s : State) (x : RegIdx) : List Byte := s.v.toList.take (x.val + 1)

/-- The bytes written to `V[k]`, `V[k + 1]`, … in ascending order; nothing is written past VF (R125, R126). -/
def State.setRegsFrom (s : State) (k : Nat) : List Byte → State
  | [] => s
  | b :: bs => if h : k < 16 then State.setRegsFrom (s.setReg ⟨k, h⟩ b) (k + 1) bs else s

/-- `WriteResultAndFlag(x, result, flag)` (R84): the order matters only where `x` is VF (log 5). -/
def State.writeResultAndFlag (s : State) (x : RegIdx) (result flag : Byte) : State :=
  match s.params.vfWriteOrder with
  | .flagThenResult => (s.setReg 15 flag).setReg x result
  | .resultThenFlag => (s.setReg x result).setReg 15 flag

/-! ### Stack -/

/-- `Push(v)` (R14): STACK[SP] <- v; SP <- SP + 1, or StackOverflow when 16 slots are in use. -/
def push (s : State) (w : Word) : Except Fault State :=
  if h : s.sp.val < Config.stackDepth then
    .ok (s.setStack (s.stack.set s.sp.val w h) ⟨s.sp.val + 1, Nat.succ_lt_succ h⟩)
  else .error .stackOverflow

/-- `Pop()` (R14): SP <- SP - 1; return STACK[SP], or StackUnderflow when none is in use. The slot keeps its content
(log 20). -/
def pop (s : State) : Except Fault (Word × State) :=
  match s.sp with
  | ⟨0, _⟩ => .error .stackUnderflow
  | ⟨p + 1, h⟩ =>
    .ok (s.stack[p]'(Nat.lt_of_succ_lt_succ h), s.setStack s.stack ⟨p, Nat.lt_of_succ_lt h⟩)

/-! ### Program counter -/

/-- A control transfer's `PC <- zext_16(nnn)` (R91 to R93). -/
def State.jumpTo (s : State) (nnn : Addr12) : State := s.setPc (nnn.setWidth 16)

/-- The execute phase of a skip (R76): 2 more, on top of the advance, when the condition holds. -/
def State.skipIf (s : State) (c : Bool) : State := s.setPc (if c then s.pc + 2 else s.pc)

/-- The bit `transfer` that an execute phase reports (R74): it depends on the kind of instruction alone, and RET leaves
it false (log 13). -/
def transfers : Instr → Bool
  | .sys _ | .jp _ | .call _ | .jpV0 _ => true
  | .cls | .ret | .ldI _ => false
  | .seImm _ _ | .sneImm _ _ | .ldImm _ _ | .addImm _ _ | .rnd _ _ => false
  | .seReg _ _ | .sneReg _ _ | .ldReg _ _ | .orReg _ _ | .andReg _ _ | .xorReg _ _ => false
  | .addf _ _ | .sub _ _ | .shr _ _ | .subn _ _ | .shl _ _ => false
  | .drw _ _ _ => false
  | .skp _ | .sknp _ | .ldVxDt _ | .ldVxK _ | .ldDtVx _ | .ldStVx _ => false
  | .addI _ | .ldF _ | .ldB _ | .stRegs _ | .ldRegs _ => false

/-- The advance phase (R75): 2 is added to the PC the execute phase left, unless it transferred control. -/
def advance (i : Instr) (s : State) : State := if transfers i then s else s.setPc (s.pc + 2)

/-! ### Display -/

/-- `DISP[x, y]` (R16). -/
def Display.pixel (d : Display) (x : Fin 64) (y : Fin 32) : Bool := d[y][x]

/-- `DISP[x, y] <- b` (R16). -/
def Display.setPixel (d : Display) (x : Fin 64) (y : Fin 32) (b : Bool) : Display := d.set y (d[y].set x b)

/-- Every pixel unset. -/
def Display.blank : Display := Vector.replicate 32 (Vector.replicate 64 false)

/-- `x mod 64` (R132). -/
def column (x : Nat) : Fin 64 := Fin.ofNat 64 x

/-- `y mod 32` (R132). -/
def row (y : Nat) : Fin 32 := Fin.ofNat 32 y

/-- `DispXor(x, y, b)` (R132): whether the pixel went from set to unset, and the state after. -/
def dispXor (x y : Nat) (b : Bool) (s : State) : Bool × State :=
  let px := column x
  let py := row y
  let old := s.disp.pixel px py
  let new := old ^^ b
  let t := s.setDisp (s.disp.setPixel px py new)
  (old && !new, if b || s.params.notifyZeroBits then t.emit (.pixelToggled px py new) else t)

/-- `DispClear()` (R133): every pixel unset, one event. -/
def dispClear (s : State) : State := (s.setDisp Display.blank).emit .cleared

/-- The columns `cs` of one sprite row at display row `y`: bit 7 - c lands on column `x0 + c` (R131; log 14).
The Boolean gathers the collisions. -/
def drawColumns (x0 y : Nat) (bits : Byte) : List Nat → Bool × State → Bool × State
  | [], acc => acc
  | c :: cs, (hit, s) =>
    let (h, t) := dispXor (x0 + c) y (bits.getLsbD (7 - c)) s
    drawColumns x0 y bits cs (hit || h, t)

/-- The rows of a sprite, top to bottom from display row `y`, each left to right (R131; log 14, log 6). -/
def drawRows (x0 y : Nat) : List Byte → Bool × State → Bool × State
  | [], acc => acc
  | bits :: rows, acc => drawRows x0 (y + 1) rows (drawColumns x0 y bits [0, 1, 2, 3, 4, 5, 6, 7] acc)

/-! ### Host ports -/

/-- The next answer of a port: the oldest one lined up, or the free value of the port at its counter (log 8). -/
def Port.answer {α : Type} (p : Port α) (free : Nat → α) : α := p.script.headD (free p.drawn)

/-- The port after one answer. -/
def Port.advance {α : Type} (p : Port α) : Port α := ⟨p.script.tail, p.drawn + 1⟩

/-- `Rnd()` (R166). -/
def State.rndByte (s : State) : Byte := s.rnd.answer Config.rnd

/-- `KeyHeld(k)` (R164): the whole byte is the query; the answer for 16 or more is as free as any (log 8). -/
def State.isKeyHeld (s : State) (k : Byte) : Bool := s.keyHeld.answer fun n => Config.keyHeld n k

/-- One poll of `KeyWait()` (R142, R164): the key that has arrived, or none yet (log 9). -/
def State.keyArrived (s : State) : Option Key := s.keyWait.answer Config.keyWait

/-- `QuitRequested()` (R160). -/
def State.isQuitRequested (s : State) : Bool := s.quit.answer Config.quitRequested

end Sys2Proof.Machine
end

