-- ==== Sys2Proof/Machine/Flags.lean ====
section
/-! DEFINITION. The values written to VF as a flag: the whole list of 10_state.md R11. -/

namespace Sys2Proof.Machine

/-- A flag as the byte VF receives: 1 or 0. -/
def flagByte (c : Bool) : Byte := if c then 1 else 0

/-- Carry of 8xy4: 1 iff the unwrapped sum exceeds 255 (R106). -/
def carryFlag (a b : Byte) : Byte := flagByte (decide (255 < a.toNat + b.toNat))

/-- Not-borrow of 8xy5 and 8xy7: 1 iff the minuend is at least the subtrahend (R107, R109). -/
def notBorrowFlag (minuend subtrahend : Byte) : Byte := flagByte (decide (subtrahend.toNat ≤ minuend.toNat))

/-- The bit shifted out by 8xy6: old bit 0 (R108). -/
def shiftOutLow (a : Byte) : Byte := flagByte (a.getLsbD 0)

/-- The bit shifted out by 8xyE: old bit 7 (R110). -/
def shiftOutHigh (a : Byte) : Byte := flagByte (a.getLsbD 7)

end Sys2Proof.Machine
end

