-- ==== Sys2Proof/Machine/Operands.lean ====
section
/-! DEFINITION. The operand forms beside a register and an immediate: the effective address, the font address, the
BCD digits (43_index_memory.md, 20_memory.md R32). -/

namespace Sys2Proof.Machine

/-- The effective address `I + k`, an unbounded natural: not reduced before the bounds check (R32; log 16). -/
def State.effAddr (s : State) (k : Nat) : Nat := s.i.toNat + k

/-- "font-sprite-address-of(register) (= register value × 5)" (R122): the whole byte, not its low nibble. -/
def fontAddr (b : Byte) : Word := b.setWidth 16 * 5

/-- "BCD-digits-of(register)": hundreds, tens, ones, each a whole byte (R123). -/
def bcdDigits (b : Byte) : List Byte :=
  [BitVec.ofNat 8 (b.toNat / 100), BitVec.ofNat 8 (b.toNat / 10 % 10), BitVec.ofNat 8 (b.toNat % 10)]

end Sys2Proof.Machine
end

