-- ==== Sys2Proof/Machine/Alu.lean ====
section
/-! DEFINITION. Register load, arithmetic, logic, shift, random (42_alu.md): the execute phases. -/

namespace Sys2Proof.Machine

/-- R100. -/
def execLdImm (x : RegIdx) (kk : Byte) (s : State) : Result := .next (s.setReg x kk)

/-- R101: modulo 256, VF not written as a flag. -/
def execAddImm (x : RegIdx) (kk : Byte) (s : State) : Result := .next (s.setReg x (s.reg x + kk))

/-- R102. -/
def execLdReg (x y : RegIdx) (s : State) : Result := .next (s.setReg x (s.reg y))

/-- R103. -/
def execOrReg (x y : RegIdx) (s : State) : Result := .next (s.setReg x (s.reg x ||| s.reg y))

/-- R104. -/
def execAndReg (x y : RegIdx) (s : State) : Result := .next (s.setReg x (s.reg x &&& s.reg y))

/-- R105. -/
def execXorReg (x y : RegIdx) (s : State) : Result := .next (s.setReg x (s.reg x ^^^ s.reg y))

/-- R106: sum modulo 256, carry. -/
def execAddf (x y : RegIdx) (s : State) : Result :=
  let a := s.reg x
  let b := s.reg y
  .next (s.writeResultAndFlag x (BitVec.ofNat 8 (a.toNat + b.toNat)) (carryFlag a b))

/-- R107: Vx - Vy modulo 256, not-borrow. -/
def execSub (x y : RegIdx) (s : State) : Result :=
  let a := s.reg x
  let b := s.reg y
  .next (s.writeResultAndFlag x (a - b) (notBorrowFlag a b))

/-- R108: Vx is shifted, `y` is ignored (R59). -/
def execShr (x _y : RegIdx) (s : State) : Result :=
  let a := s.reg x
  .next (s.writeResultAndFlag x (a >>> 1) (shiftOutLow a))

/-- R109: Vy - Vx modulo 256, not-borrow. -/
def execSubn (x y : RegIdx) (s : State) : Result :=
  let a := s.reg x
  let b := s.reg y
  .next (s.writeResultAndFlag x (b - a) (notBorrowFlag b a))

/-- R110: Vx is shifted, `y` is ignored (R59). -/
def execShl (x _y : RegIdx) (s : State) : Result :=
  let a := s.reg x
  .next (s.writeResultAndFlag x (a <<< 1) (shiftOutHigh a))

/-- R111: one draw of the random port, masked (log 8). -/
def execRnd (x : RegIdx) (kk : Byte) (s : State) : Result :=
  .next ((s.setReg x (s.rndByte &&& kk)).setRnd s.rnd.advance)

end Sys2Proof.Machine
end

