-- ==== Sys2Proof/Machine/DisplayOps.lean ====
section
/-! DEFINITION. The display instructions (44_display.md): the execute phases. -/

namespace Sys2Proof.Machine

/-- R130. -/
def execCls (s : State) : Result := .next (dispClear s)

/-- R131: the coordinates and the rows are read first; VF is always written (log 14, log 15, log 23). -/
def execDrw (x y : RegIdx) (n : Nibble) (s : State) : Result :=
  match readBlock s (s.effAddr 0) n.toNat with
  | .error f => raise f
  | .ok rows =>
    let (hit, t) := drawRows (s.reg x).toNat (s.reg y).toNat rows (false, s)
    .next (t.setReg 15 (flagByte hit))

end Sys2Proof.Machine
end

