-- ==== Sys2Proof/Machine/Flow.lean ====
section
/-! DEFINITION. Return, jumps, call, compare-and-skip (41_flow.md): the execute phases. -/

namespace Sys2Proof.Machine

/-- R90: `PC <- Pop()`; the advance then adds 2 (log 13). StackUnderflow when the stack is empty (R153). -/
def execRet (s : State) : Result :=
  match pop s with
  | .error f => raise f
  | .ok (w, t) => .next (t.setPc w)

/-- R91: an ordinary jump (R58). -/
def execSys (nnn : Addr12) (s : State) : Result := .next (s.jumpTo nnn)

/-- R92. -/
def execJp (nnn : Addr12) (s : State) : Result := .next (s.jumpTo nnn)

/-- R93: pushes the CALL's own address (log 13). StackOverflow when 16 values are on the stack (R152). -/
def execCall (nnn : Addr12) (s : State) : Result :=
  match push s s.pc with
  | .error f => raise f
  | .ok t => .next (t.jumpTo nnn)

/-- R94: the sum is not reduced modulo 4096 (log 17). -/
def execJpV0 (nnn : Addr12) (s : State) : Result := .next (s.setPc (nnn.setWidth 16 + (s.reg 0).setWidth 16))

/-- R95. -/
def execSeImm (x : RegIdx) (kk : Byte) (s : State) : Result := .next (s.skipIf (s.reg x == kk))

/-- R96. -/
def execSneImm (x : RegIdx) (kk : Byte) (s : State) : Result := .next (s.skipIf (s.reg x != kk))

/-- R97. -/
def execSeReg (x y : RegIdx) (s : State) : Result := .next (s.skipIf (s.reg x == s.reg y))

/-- R98. -/
def execSneReg (x y : RegIdx) (s : State) : Result := .next (s.skipIf (s.reg x != s.reg y))

end Sys2Proof.Machine
end

