-- ==== Sys2Proof/Machine/IndexMemory.lean ====
section
/-! DEFINITION. Index register, BCD, block load and store (43_index_memory.md): the execute phases. `I` is never
modified by a load or a store. -/

namespace Sys2Proof.Machine

/-- R120. -/
def execLdI (nnn : Addr12) (s : State) : Result := .next (s.setI (nnn.setWidth 16))

/-- R121: modulo 65536, no flag. -/
def execAddI (x : RegIdx) (s : State) : Result := .next (s.setI (s.i + (s.reg x).setWidth 16))

/-- R122: no memory is accessed. -/
def execLdF (x : RegIdx) (s : State) : Result := .next (s.setI (fontAddr (s.reg x)))

/-- R123: three digits at `I`, `I + 1`, `I + 2`. -/
def execLdB (x : RegIdx) (s : State) : Result := settle (writeBlock s (s.effAddr 0) (bcdDigits (s.reg x)))

/-- R124: V0 to Vx at `I` to `I + x`. -/
def execStRegs (x : RegIdx) (s : State) : Result := settle (writeBlock s (s.effAddr 0) (s.regsUpTo x))

/-- R125: V0 to Vx from `I` to `I + x`. -/
def execLdRegs (x : RegIdx) (s : State) : Result :=
  match readBlock s (s.effAddr 0) (x.val + 1) with
  | .error f => raise f
  | .ok bs => .next (s.setRegsFrom 0 bs)

end Sys2Proof.Machine
end

