-- ==== Sys2Proof/Machine/KeypadTimers.lean ====
section
/-! DEFINITION. Keypad and timer instructions (45_keypad_timers.md): the execute phases. -/

namespace Sys2Proof.Machine

/-- R140: one query of the keypad, with the whole byte (log 8). -/
def execSkp (x : RegIdx) (s : State) : Result :=
  .next ((s.skipIf (s.isKeyHeld (s.reg x))).setKeyHeld s.keyHeld.advance)

/-- R141: one query of the keypad, with the whole byte (log 8). -/
def execSknp (x : RegIdx) (s : State) : Result :=
  .next ((s.skipIf (!s.isKeyHeld (s.reg x))).setKeyHeld s.keyHeld.advance)

/-- R142: one poll of `KeyWait()`. With a key, `V[x]` receives its number and `STATUS` is `RUN`; with none, `STATUS` is
`WAIT_KEY`, and a later step polls again by this same meaning (R83; log 9). -/
def execLdVxK (x : RegIdx) (s : State) : Result :=
  let t := s.setKeyWait s.keyWait.advance
  .next (match s.keyArrived with
    | some k => (t.setReg x (BitVec.ofNat 8 k.val)).setStatus .run
    | none => t.setStatus (.waitKey x))

/-- R143. -/
def execLdVxDt (x : RegIdx) (s : State) : Result := .next (s.setReg x s.dt)

/-- R144: `TICK` is not touched. -/
def execLdDtVx (x : RegIdx) (s : State) : Result := .next (s.setDt (s.reg x))

/-- R145: ST has no effect (log 26). -/
def execLdStVx (x : RegIdx) (s : State) : Result := .next (s.setSt (s.reg x))

end Sys2Proof.Machine
end

