-- ==== Sys2Proof/Machine/Cycle.lean ====
section
/-! DEFINITION. The tick, the frame and the waiting of 40_execution_cycle.md, which Step.lean calls (log 10). -/

namespace Sys2Proof.Machine

/-- Fetch (R72): `MemRead(PC, 1)`, then `MemRead(PC + 1, 1)`. -/
def fetch (s : State) : Except Fault (Byte × Byte) :=
  match memRead s s.pc.toNat with
  | .error f => .error f
  | .ok b0 =>
    match memRead s (s.pc.toNat + 1) with
    | .error f => .error f
    | .ok b1 => .ok (b0, b1)

/-- The phase the frame stands at when `n` ticks of it are done (R77). -/
def phaseAfter (s : State) (n : Nat) : FramePhase := if n < s.params.tpf then .tick else .frameEnd

/-- `TICK <- TICK + 1` at the end of a tick, and the next tick or the frame end comes (R77). -/
def endTick (s : State) : State := (s.setTick (s.tick + 1)).setPhase (phaseAfter s (s.tick + 1))

/-- What follows an execute phase: nothing while an Fx0A waits (R83), else the advance and the end of the tick. -/
def finishTick (i : Instr) (s : State) : State :=
  match s.status with
  | .waitKey _ => s
  | .run | .haltPc | .haltQuit | .fatal _ => endTick (advance i s)

/-- The execute phase of an instruction and what follows it in its tick. -/
def runInstr (i : Instr) (s : State) : Result :=
  match exec i s with
  | .next t => .next (finishTick i t)
  | .fault f => .fault f
  | .refused r => .refused r

/-- One `Tick()`: the termination check (R71; log 17), fetch, decode (R73), execute, advance. -/
def tickStep (s : State) : Result :=
  if Config.memSize ≤ s.pc.toNat then .next (s.setStatus .haltPc)
  else
    match fetch s with
    | .error f => raise f
    | .ok (b0, b1) =>
      match decode b0 b1 with
      | .ok i => runInstr i s
      | .error (.decodeError c0 c1) => raise (.decodeError c0 c1)

/-- The quit poll at the start of a frame (R78, R160): the run ends, or `TICK <- 0` and the tick batch begins. -/
def quitPoll (s : State) : State :=
  let t := s.setQuit s.quit.advance
  if s.isQuitRequested then t.setStatus .haltQuit else (t.setTick 0).setPhase (phaseAfter s 0)

/-- A timer decremented by one and clamped at zero (R163). -/
def countDown (b : Byte) : Byte := if b = 0 then 0 else b - 1

/-- The frame end (R79): the event, then both timers; the next frame's quit poll comes. The frame wait of R81 changes
nothing (log 28). -/
def frameEnd (s : State) : State :=
  let t := s.emit .framePresented
  ((t.setDt (countDown t.dt)).setSt (countDown t.st)).setPhase .poll

/-- The machine placed before the tick that runs the word `w` at PC: its bytes in memory, high byte first, and the
frame's quit poll behind it. A PC with no two bytes of memory to fetch is moved to 512. -/
def placeWord (s : State) (w : Word) : State :=
  let t := if s.pc.toNat + 1 < Config.memSize then s else s.setPc (BitVec.ofNat 16 Config.progBase)
  let m := (t.mem.write t.pc.toNat (highByte w)).write (t.pc.toNat + 1) (lowByte w)
  ((t.setMem m).setStatus .run).setPhase .tick

end Sys2Proof.Machine
end

