-- ==== Sys2Proof/Machine/Step.lean ====
section
/-! DEFINITION. One step: what `STATUS` and the frame position say comes next (40_execution_cycle.md; log 10). -/

namespace Sys2Proof.Machine

/-- Ended runs are absorbing (R82); a waiting Fx0A polls again (R83, R142); a running machine polls the quit signal,
does one tick, or ends the frame (R77). -/
def step (s : State) : Host.Outcome State Fault Refusal :=
  match s.status with
  | .haltPc => .next s
  | .haltQuit => .next s
  | .fatal f => raise f
  | .waitKey x => runInstr (.ldVxK x) s
  | .run =>
    match s.phase with
    | .poll => .next (quitPoll s)
    | .tick => tickStep s
    | .frameEnd => .next (frameEnd s)

/-- The state whose next step runs the table word `w` (log 10). -/
def State.withFetchWord (s : State) (_nbits w : Nat) : State := placeWord s (BitVec.ofNat 16 w)

end Sys2Proof.Machine
end

