-- ==== Sys2Proof/Machine/Reset.lean ====
section
/-! DEFINITION. The reset procedure with its inputs (70_reset_and_hazards.md R180): the load port of R167. -/

namespace Sys2Proof.Machine

/-- `Reset(program, len)` on a machine in state `s`, with the parameters and the font bytes (R180). A program that does
not fit writes nothing and leaves FATAL (R183). The ports are the host's and stay; a new event stream begins (log 21). -/
def resetWith (params : Params) (font : Vector Byte 80) (program : List Byte) (s : State) : State :=
  if Config.memSize < Config.progBase + program.length then s.enterFatal (.programTooLarge program.length)
  else
    { State.reset with
      mem := Memory.load Config.progBase program (Memory.load 0 font.toList []),
      params := params, rnd := s.rnd, keyHeld := s.keyHeld, keyWait := s.keyWait, quit := s.quit }

end Sys2Proof.Machine
end

