-- ==== Sys2Proof/Safety.lean ====
section
/-! DEFINITION. What a safe run keeps, and the frames the statements use. -/

namespace Sys2Proof.Machine

/-! ### Invariants -/

/-- The effect of one event on a listener's grid (R134). -/
def Display.replayEvent (d : Display) : Event → Display
  | .pixelToggled x y b => d.setPixel x y b
  | .cleared => Display.blank
  | .framePresented => d

/-- The grid a listener holds after a stream of events, from an all-unset grid (R134). -/
def Display.replay (es : List Event) : Display := es.foldl Display.replayEvent Display.blank

/-- Memory is in its canonical form. -/
def State.MemoryCanonical (s : State) : Prop := s.mem.wf = true

/-- "At any moment `DISP` equals the result of replaying the stream from an all-unset grid" (R134). -/
def State.DisplayIsReplay (s : State) : Prop := Display.replay s.events = s.disp

/-- PC never exceeds 0x10FE = 4350 (R13). What keeps it so: the stack holds addresses of CALLs, which are at most 4094
(R90), and an Fx0A that waits is at an address that was fetched. -/
def State.PcBounded (s : State) : Prop :=
  s.pc.toNat ≤ 0x10FE ∧ (∀ k : Fin 16, s.stack[k].toNat ≤ 4094) ∧ ∀ x, s.status = .waitKey x → s.pc.toNat ≤ 4094

/-- `TICK` is in 0..TPF (R19), below TPF before a tick and equal to it at the frame end (R77); an Fx0A waits inside a
tick (R83). -/
def State.FrameLegal (s : State) : Prop :=
  s.tick ≤ s.params.tpf ∧ (s.phase = .tick → s.tick < s.params.tpf) ∧ (s.phase = .frameEnd → s.tick = s.params.tpf) ∧
    ∀ x, s.status = .waitKey x → s.phase = .tick

/-- The run has ended (R82). -/
def State.Ended (s : State) : Prop := s.status = .haltPc ∨ s.status = .haltQuit ∨ ∃ f, s.status = .fatal f

/-! ### What a step is about to do -/

/-- The next step is a tick that runs `i`: the two bytes at PC decode to it, high byte first (R33, R72, R73). -/
def State.AboutToRun (s : State) (i : Instr) : Prop :=
  s.status = .run ∧ s.phase = .tick ∧ s.pc.toNat ≤ 4094 ∧
    decode (s.mem.read s.pc.toNat) (s.mem.read (s.pc.toNat + 1)) = .ok i

/-- The four instructions of R74 that report an explicit control transfer. -/
def IsTransfer (i : Instr) : Prop :=
  (∃ nnn, i = .sys nnn) ∨ (∃ nnn, i = .jp nnn) ∨ (∃ nnn, i = .call nnn) ∨ ∃ nnn, i = .jpV0 nnn

/-- The state after the tick whose execute phase left `t` and whose advance left `pc` (R75, R77): one more tick done, and
the next tick or the frame end comes. -/
def State.tickDone (t : State) (pc : Word) : State :=
  { t with pc := pc, tick := t.tick + 1, phase := if t.tick + 1 < t.params.tpf then .tick else .frameEnd }

/-! ### Frames -/

/-- Every byte of memory reads as before. -/
def SameBytes (s t : State) : Prop := ∀ a, t.mem.read a = s.mem.read a

/-- Every byte of memory outside `n` bytes from `a` on reads as before. -/
def SameBytesOutside (a n : Nat) (s t : State) : Prop :=
  ∀ b, (b < a ∨ a + n ≤ b) → t.mem.read b = s.mem.read b

/-- Every V register outside `rs` is as before. -/
def SameRegsBut (rs : List RegIdx) (s t : State) : Prop := ∀ r, r ∉ rs → t.reg r = s.reg r

/-- Only the V registers `rs` may differ: every other piece of state is as before. -/
def ChangesOnlyRegs (rs : List RegIdx) (s t : State) : Prop :=
  t = { s with v := t.v } ∧ SameRegsBut rs s t ∧ SameBytes s t

/-- Only PC may differ. -/
def ChangesOnlyPc (s t : State) : Prop :=
  t = { s with pc := t.pc } ∧ SameRegsBut [] s t ∧ SameBytes s t

end Sys2Proof.Machine
end

