-- ==== Sys2Proof/Certificates/Slice0/Obligations.lean ====
section
/-! DEFINITION. The statements for the provers: what the numbered rules of spec/ say the machine does. A docstring names
the rule, or says that a clause is a decision and names its log entry. -/

open Sys2Proof Sys2Proof.Machine

/-! ### Encoding -/

/-- Decoding the encoding of an instruction gives it back, with every operand at every value (30_encoding.md sections 1
and 2). The `y` of SHR and SHL is kept (log 22). -/
def Obligations.DecodeOfEncode : Prop :=
  ∀ i : Instr, i.wellFormed = true → decode (encode i).1 (encode i).2 = .ok i

/-- No two words decode to one instruction: a word that decodes is the encoding of what it decodes to, which is
well-formed (30_encoding.md section 2; log 22, log 24). -/
def Obligations.EncodeOfDecode : Prop :=
  ∀ (b0 b1 : Byte) (i : Instr), decode b0 b1 = .ok i → i.wellFormed = true ∧ encode i = (b0, b1)

/-- The decoder reads the opcode map: a word is the first row whose mask and match select it, and where none does it is a
decode error with the raw bytes (30_encoding.md sections 2 and 3; that families 5 and 9 match n is decision D7, log 12; the
priority of 00E0 and 00EE is the spec's inference, log 24). -/
def Obligations.DecodeFollowsOpcodeMap : Prop :=
  ∀ b0 b1 : Byte,
    match decode b0 b1 with
    | .ok i => (opcodeTable.find? fun r => r.selects (wordOf b0 b1)).map OpcodeRow.number = some i.rowNumber
    | .error e => (opcodeTable.find? fun r => r.selects (wordOf b0 b1)) = none ∧ e = .decodeError b0 b1

/-- The illegal words are those of the table of R56 and no others (families 5 and 9: decision D7, log 12). -/
def Obligations.IllegalWordsAreDecodeErrors : Prop :=
  ∀ b0 b1 : Byte,
    decode b0 b1 = .error (.decodeError b0 b1) ↔
      (b0.toNat / 16 = 5 ∧ b1.toNat % 16 ≠ 0) ∨
      (b0.toNat / 16 = 8 ∧ b1.toNat % 16 ∈ [8, 9, 10, 11, 12, 13, 15]) ∨
      (b0.toNat / 16 = 9 ∧ b1.toNat % 16 ≠ 0) ∨
      (b0.toNat / 16 = 14 ∧ b1.toNat ∉ [0x9E, 0xA1]) ∨
      (b0.toNat / 16 = 15 ∧ b1.toNat ∉ [0x07, 0x0A, 0x15, 0x18, 0x1E, 0x29, 0x33, 0x55, 0x65])

/-- Words written out from the patterns of R55 decode to the instruction they stand for (95_test_vectors.md 2.1). -/
def Obligations.SampleWordsDecode : Prop :=
  decode 0x00 0xE0 = .ok .cls ∧ decode 0x00 0xEE = .ok .ret ∧ decode 0x0F 0xFF = .ok (.sys 0xFFF) ∧
  decode 0x3A 0x7F = .ok (.seImm 10 0x7F) ∧ decode 0x8A 0xB6 = .ok (.shr 10 11) ∧ decode 0xBF 0xFF = .ok (.jpV0 0xFFF) ∧
  decode 0xD1 0x25 = .ok (.drw 1 2 5) ∧ decode 0xEA 0xA1 = .ok (.sknp 10) ∧ decode 0xFA 0x33 = .ok (.ldB 10) ∧
  decode 0xFA 0x65 = .ok (.ldRegs 10)

/-! ### The tick -/

/-- A step at a decodable word is the execute phase of the instruction, then the advance and the end of the tick
(40_execution_cycle.md section 2). A fatal condition stops it, with no advance; no instruction is refused; a blocked Fx0A stays where it is (log 9);
RET is advanced (decision D6, log 13). -/
def Obligations.StepRunsDecodedInstruction : Prop :=
  ∀ (s : State) (i : Instr), s.AboutToRun i →
    (∀ f, exec i s = .fault f → step s = .fault f) ∧
    (∀ r, exec i s ≠ .refused r) ∧
    ∀ t, exec i s = .next t →
      (∀ x, t.status = .waitKey x → step s = .next t) ∧
      ((∀ x, t.status ≠ .waitKey x) →
        (IsTransfer i → step s = .next (t.tickDone t.pc)) ∧ (¬ IsTransfer i → step s = .next (t.tickDone (t.pc + 2))))

/-- A taken skip is 4 bytes in all, an untaken one 2, whatever bytes are skipped (40_execution_cycle.md section 2); nothing
else changes but the tick count, the frame position (log 10), and the keypad port for the key skips, which query the whole
byte of Vx (decision D16, log 8). -/
def Obligations.SkipsNetFourBytes : Prop :=
  ∀ (s : State) (x y : RegIdx) (kk : Byte),
    (s.AboutToRun (.seImm x kk) → step s = .next (s.tickDone (if s.reg x = kk then s.pc + 4 else s.pc + 2))) ∧
    (s.AboutToRun (.sneImm x kk) → step s = .next (s.tickDone (if s.reg x ≠ kk then s.pc + 4 else s.pc + 2))) ∧
    (s.AboutToRun (.seReg x y) → step s = .next (s.tickDone (if s.reg x = s.reg y then s.pc + 4 else s.pc + 2))) ∧
    (s.AboutToRun (.sneReg x y) → step s = .next (s.tickDone (if s.reg x ≠ s.reg y then s.pc + 4 else s.pc + 2))) ∧
    (s.AboutToRun (.skp x) → step s = .next ((s.setKeyHeld s.keyHeld.advance).tickDone
      (if s.isKeyHeld (s.reg x) = true then s.pc + 4 else s.pc + 2))) ∧
    (s.AboutToRun (.sknp x) → step s = .next ((s.setKeyHeld s.keyHeld.advance).tickDone
      (if s.isKeyHeld (s.reg x) = false then s.pc + 4 else s.pc + 2)))

/-- The termination check comes before the fetch and changes STATUS alone (40_execution_cycle.md section 2; the threshold
4096 and the moment are decision D12, log 17). -/
def Obligations.PcPastEndHalts : Prop :=
  ∀ s : State, s.status = .run → s.phase = .tick → 4096 ≤ s.pc.toNat → step s = .next { s with status := .haltPc }

/-- Below 4095 the fetch answers the bytes at PC and PC + 1; at 4095 the second read is out of range, and the step is that
fault (40_execution_cycle.md section 2; that PC = 4095 does not end the run is decision D12, log 17). -/
def Obligations.FetchReadsTwoBytes : Prop :=
  ∀ s : State,
    (s.pc.toNat ≤ 4094 → fetch s = .ok (s.mem.read s.pc.toNat, s.mem.read (s.pc.toNat + 1))) ∧
    (s.pc.toNat = 4095 → fetch s = .error (.memoryOutOfRange 4096) ∧
      (s.status = .run → s.phase = .tick → step s = .fault (.memoryOutOfRange 4096)))

/-- An illegal word stops the machine with the two fetched bytes (60_exceptions.md section 1; no successor state, log 11). -/
def Obligations.IllegalWordStopsTheMachine : Prop :=
  ∀ (s : State) (e : DecodeReject), s.status = .run → s.phase = .tick → s.pc.toNat ≤ 4094 →
    decode (s.mem.read s.pc.toNat) (s.mem.read (s.pc.toNat + 1)) = .error e →
    step s = .fault (.decodeError (s.mem.read s.pc.toNat) (s.mem.read (s.pc.toNat + 1)))

/-! ### The frame, the ends of a run, waiting -/

/-- The quit signal is sampled once at the start of a frame, where it ends the run or the tick batch begins, and at no
other step (40_execution_cycle.md section 3; log 10, log 27). -/
def Obligations.QuitIsPolledAtFrameStartOnly : Prop :=
  (∀ s : State, s.status = .run → s.phase = .poll →
    (s.isQuitRequested = true → step s = .next { s with status := .haltQuit, quit := s.quit.advance }) ∧
    (s.isQuitRequested = false → step s = .next { s with
      tick := 0, phase := if 0 < s.params.tpf then .tick else .frameEnd, quit := s.quit.advance })) ∧
  ∀ s t : State, step s = .next t → ¬ (s.status = .run ∧ s.phase = .poll) → t.quit = s.quit

/-- R79: after the TPF-th tick of a frame, one `FramePresented`, and both timers down by one, clamped at zero. -/
def Obligations.FrameEndCountsTimers : Prop :=
  ∀ s : State, s.FrameLegal → s.status = .run → s.phase = .frameEnd →
    s.tick = s.params.tpf ∧
    ∃ t, step s = .next t ∧ t.events = s.events ++ [.framePresented] ∧
      t.dt.toNat = s.dt.toNat - 1 ∧ t.st.toNat = s.st.toNat - 1 ∧
      t = { s with dt := t.dt, st := t.st, events := t.events, phase := .poll }

/-- A timer changes at a frame end, or by the one instruction that writes it, and by nothing else (10_state.md section 6,
60_exceptions.md section 5). -/
def Obligations.TimersChangeOnlyAtFrameEndOrByLoad : Prop :=
  ∀ s t : State, step s = .next t → ¬ (s.status = .run ∧ s.phase = .frameEnd) →
    (t.dt = s.dt ∨ ∃ x, s.AboutToRun (.ldDtVx x) ∧ t.dt = s.reg x) ∧
    (t.st = s.st ∨ ∃ x, s.AboutToRun (.ldStVx x) ∧ t.st = s.reg x)

/-- An ended run changes nothing more, and a run ends without error in two ways only (40_execution_cycle.md section 4;
that FATAL answers its fault is log 11). -/
def Obligations.EndedRunsAreAbsorbing : Prop :=
  (∀ s : State, s.status = .haltPc ∨ s.status = .haltQuit → step s = .next s) ∧
  (∀ (s : State) (f : Fault), s.status = .fatal f → step s = .fault f) ∧
  ∀ s t : State, ¬ s.Ended → step s = .next t → t.Ended →
    (t.status = .haltPc ∧ s.phase = .tick ∧ 4096 ≤ s.pc.toNat) ∨
    (t.status = .haltQuit ∧ s.phase = .poll ∧ s.isQuitRequested = true)

/-- While an Fx0A waits nothing happens but a poll of the key port; the key that arrives completes its tick
(40_execution_cycle.md section 4, 45_keypad_timers.md section 2; log 9). -/
def Obligations.WaitingForAKeyFreezesTheMachine : Prop :=
  ∀ (s : State) (x : RegIdx), s.status = .waitKey x →
    (s.keyArrived = none → step s = .next { s with keyWait := s.keyWait.advance }) ∧
    ∀ k, s.keyArrived = some k → ∃ t, step s = .next (t.tickDone (s.pc + 2)) ∧
      t = { s with v := t.v, status := .run, keyWait := s.keyWait.advance } ∧
      (t.reg x).toNat = k.val ∧ SameRegsBut [x] s t

/-! ### Invariants -/

/-- Every step keeps memory in its canonical form. -/
def Obligations.MemoryStaysCanonical : Prop :=
  ∀ s t : State, s.MemoryCanonical → step s = .next t → t.MemoryCanonical

/-- Every step keeps PC at most 0x10FE and the stack's addresses at most 4094 (10_state.md section 4, the spec's own
inference from its decisions D6, D11, D12; log 4). -/
def Obligations.PcStaysBounded : Prop :=
  ∀ s t : State, s.PcBounded → step s = .next t → t.PcBounded

/-- Every step keeps TICK in 0..TPF and the frame position in accord with it (10_state.md section 9,
40_execution_cycle.md section 3; log 10). -/
def Obligations.FrameStaysLegal : Prop :=
  ∀ s t : State, s.FrameLegal → step s = .next t → t.FrameLegal

/-- Every step keeps the display equal to the replay of the event stream, with either value of NOTIFY_ZERO_BITS
(44_display.md section 1, the spec's own inference; log 6, log 19). -/
def Obligations.DisplayStaysTheReplayOfEvents : Prop :=
  ∀ s t : State, s.DisplayIsReplay → step s = .next t → t.DisplayIsReplay

/-- The four invariants hold at reset. -/
def Obligations.ResetMeetsTheInvariants : Prop :=
  State.reset.MemoryCanonical ∧ State.reset.PcBounded ∧ State.reset.FrameLegal ∧ State.reset.DisplayIsReplay

/-- The four invariants hold after a reset with any program that fits, any font and any parameters (log 21). -/
def Obligations.LoadedMachineMeetsTheInvariants : Prop :=
  ∀ (p : Params) (font : Vector Byte 80) (program : List Byte) (s : State), program.length ≤ 3584 →
    (resetWith p font program s).MemoryCanonical ∧ (resetWith p font program s).PcBounded ∧
    (resetWith p font program s).FrameLegal ∧ (resetWith p font program s).DisplayIsReplay

/-! ### Reset -/

/-- The font bytes at [0, 80), the program verbatim at [512, 512 + len), zeros elsewhere; the program's first two bytes,
zeros where it has fewer, are the first that are fetched, the first of them the high byte of the word; a longer program is
refused (20_memory.md section 5; that the first fetch is at 512 is decision D3, log 2). -/
def Obligations.ResetBuildsTheMemoryImage : Prop :=
  ∀ (p : Params) (font : Vector Byte 80) (program : List Byte) (s : State),
    (program.length ≤ 3584 →
      (∀ (a : Nat) (h : a < 80), (resetWith p font program s).mem.read a = font[a]) ∧
      (∀ a, 80 ≤ a → a < 512 → (resetWith p font program s).mem.read a = 0) ∧
      (∀ (k : Nat) (h : k < program.length), (resetWith p font program s).mem.read (512 + k) = program[k]) ∧
      (∀ a, 512 + program.length ≤ a → a < 4096 → (resetWith p font program s).mem.read a = 0) ∧
      fetch (resetWith p font program s) = .ok (program.getD 0 0, program.getD 1 0) ∧
      highByte (wordOf (program.getD 0 0) (program.getD 1 0)) = program.getD 0 0) ∧
    (3584 < program.length → (resetWith p font program s).status = .fatal (.programTooLarge program.length))

/-- R183: a program of more than 3584 bytes writes nothing and no instruction ever runs; one of 3584 bytes or of none is
accepted, and an empty one leaves zeros at 512, which decode as SYS 0. -/
def Obligations.ProgramThatDoesNotFitIsRefused : Prop :=
  ∀ (p : Params) (font : Vector Byte 80) (program : List Byte) (s : State),
    (3584 < program.length →
      resetWith p font program s = { s with status := .fatal (.programTooLarge program.length) } ∧
      step (resetWith p font program s) = .fault (.programTooLarge program.length)) ∧
    (program.length ≤ 3584 → (resetWith p font program s).status = .run) ∧
    (program = [] → (resetWith p font program s).mem.read 512 = 0 ∧ (resetWith p font program s).mem.read 513 = 0 ∧
      decode 0 0 = .ok (.sys 0))

/-- The registers after a reset with a program that fits (70_reset_and_hazards.md section 1, the spec's decisions D2, D3
and D26; log 1, log 2), and the machine's own reset as the reset with no program and the default parameters. -/
def Obligations.ResetRegisters : Prop :=
  (∀ (p : Params) (font : Vector Byte 80) (program : List Byte) (s t : State), program.length ≤ 3584 →
    resetWith p font program s = t →
    (∀ r, t.reg r = 0) ∧ t.i = 0 ∧ t.pc = 512 ∧ t.sp = 0 ∧ (∀ k : Fin 16, t.stack[k] = 0) ∧ t.dt = 0 ∧ t.st = 0 ∧
    (∀ x y, t.disp.pixel x y = false) ∧ t.tick = 0 ∧ t.status = .run ∧ t.phase = .poll ∧ t.events = []) ∧
  resetWith ⟨Config.ticksPerFrame, .flagThenResult, false⟩ Config.fontDefault [] State.reset = State.reset

/-! ### Memory -/

/-- In range, a byte written is the byte read, and every other address reads as before; out of range, a read and a write
raise MemoryOutOfRange with the address (20_memory.md section 1). That memory has a canonical form and a write keeps it is
the model's own choice (log 3). -/
def Obligations.MemoryAccessIsBoundsChecked : Prop :=
  ∀ (s : State) (a : Nat) (w : Byte), s.MemoryCanonical →
    (a < 4096 → memRead s a = .ok (s.mem.read a) ∧
      ∃ t, memWrite s a w = .ok t ∧ t = { s with mem := t.mem } ∧ t.MemoryCanonical ∧
        ∀ b, memRead t b = if b = a then .ok w else memRead s b) ∧
    (4096 ≤ a → memRead s a = .error (.memoryOutOfRange a) ∧ memWrite s a w = .error (.memoryOutOfRange a))

/-- R154: who raises MemoryOutOfRange, when, and that the address reported is the lowest out of range, max(I, 4096). -/
def Obligations.OutOfRangeAccessFaults : Prop :=
  ∀ (s : State) (x y : RegIdx) (n : Nibble) (f : Fault),
    (exec (.drw x y n) s = .fault f ↔
      n ≠ 0 ∧ 4096 < s.i.toNat + n.toNat ∧ f = .memoryOutOfRange (max s.i.toNat 4096)) ∧
    (exec (.ldB x) s = .fault f ↔ 4096 < s.i.toNat + 3 ∧ f = .memoryOutOfRange (max s.i.toNat 4096)) ∧
    (exec (.stRegs x) s = .fault f ↔
      4096 < s.i.toNat + (x.val + 1) ∧ f = .memoryOutOfRange (max s.i.toNat 4096)) ∧
    (exec (.ldRegs x) s = .fault f ↔
      4096 < s.i.toNat + (x.val + 1) ∧ f = .memoryOutOfRange (max s.i.toNat 4096)) ∧
    (s.pc.toNat ≤ 4095 → (fetch s = .error f ↔ s.pc.toNat = 4095 ∧ f = .memoryOutOfRange 4096)) ∧
    (∀ a w, 4096 ≤ a → memRead s a = .error (.memoryOutOfRange a) ∧ memWrite s a w = .error (.memoryOutOfRange a)) ∧
    ∀ (i : Instr) (a : Nat), exec i s = .fault (.memoryOutOfRange a) →
      (∃ x y n, i = .drw x y n) ∨ (∃ x, i = .ldB x) ∨ (∃ x, i = .stRegs x) ∨ ∃ x, i = .ldRegs x

/-- Which fatal condition an execute phase can raise: no other instruction raises anything (60_exceptions.md section 1). -/
def Obligations.EachInstructionRaisesItsOwnFault : Prop :=
  ∀ (i : Instr) (s : State) (f : Fault), exec i s = .fault f →
    ((∃ nnn, i = .call nnn) ∧ f = .stackOverflow) ∨ (i = .ret ∧ f = .stackUnderflow) ∨
    (((∃ x y n, i = .drw x y n) ∨ (∃ x, i = .ldB x) ∨ (∃ x, i = .stRegs x) ∨ ∃ x, i = .ldRegs x) ∧
      ∃ a, 4096 ≤ a ∧ f = .memoryOutOfRange a)

/-! ### Control flow -/

/-- R91, R92: SYS and JP load PC with nnn, receive no advance, and change nothing else. -/
def Obligations.JumpsLoadPc : Prop :=
  ∀ (nnn : Addr12) (s : State),
    (∃ t, exec (.sys nnn) s = .next t ∧ ChangesOnlyPc s t ∧ t.pc.toNat = nnn.toNat ∧ advance (.sys nnn) t = t) ∧
    ∃ t, exec (.jp nnn) s = .next t ∧ ChangesOnlyPc s t ∧ t.pc.toNat = nnn.toNat ∧ advance (.jp nnn) t = t

/-- CALL pushes its own address and jumps with no advance, while a slot is free (41_flow.md section 1; that the address
pushed is the CALL's own is decision D6, log 13). -/
def Obligations.CallPushesItsAddressAndJumps : Prop :=
  ∀ (nnn : Addr12) (s : State), s.sp.val < 16 →
    ∃ t, exec (.call nnn) s = .next t ∧ t = { s with pc := t.pc, sp := t.sp, stack := t.stack } ∧
      t.pc.toNat = nnn.toNat ∧ t.sp.val = s.sp.val + 1 ∧
      (∀ k : Fin 16, t.stack[k] = if k.val = s.sp.val then s.pc else s.stack[k]) ∧
      advance (.call nnn) t = t ∧ SameRegsBut [] s t ∧ SameBytes s t

/-- RET loads PC with the top of the stack, takes it off, and is then advanced by 2, while a slot is in use (41_flow.md
section 1; the advance is decision D6, log 13; the popped slot keeps its content, decision D25, log 20). -/
def Obligations.RetPopsPcAndIsAdvanced : Prop :=
  ∀ (s : State) (p : Fin 16), s.sp.val = p.val + 1 →
    ∃ t, exec .ret s = .next t ∧ t = { s with pc := t.pc, sp := t.sp } ∧
      t.pc = s.stack[p] ∧ t.sp.val = p.val ∧ (advance .ret t).pc = t.pc + 2 ∧ SameRegsBut [] s t ∧ SameBytes s t

/-- CALL raises StackOverflow exactly when 16 slots are in use, RET StackUnderflow exactly when none is; neither raises
anything else (60_exceptions.md section 1; the fault carries no successor state, log 11). -/
def Obligations.StackFaults : Prop :=
  ∀ (nnn : Addr12) (s : State) (f : Fault),
    (exec (.call nnn) s = .fault f ↔ s.sp.val = 16 ∧ f = .stackOverflow) ∧
    (exec .ret s = .fault f ↔ s.sp.val = 0 ∧ f = .stackUnderflow)

/-- "CALL followed by RET restores PC to exactly its pre-CALL value", in the execute phases, whatever the subroutine did
that left the stack as CALL left it (41_flow.md section 1; log 13). -/
def Obligations.CallThenRetRestoresPc : Prop :=
  ∀ (nnn : Addr12) (s t u : State), exec (.call nnn) s = .next t → u.stack = t.stack → u.sp = t.sp →
    ∃ w, exec .ret u = .next w ∧ w.pc = s.pc ∧ w.sp = s.sp

/-- JP V0 loads PC with nnn + V0 and receives no advance; the sum is not reduced (41_flow.md section 1; decision D11,
log 17). -/
def Obligations.JumpV0AddsWithoutWrap : Prop :=
  ∀ (nnn : Addr12) (s : State),
    ∃ t, exec (.jpV0 nnn) s = .next t ∧ ChangesOnlyPc s t ∧ t.pc.toNat = nnn.toNat + (s.reg 0).toNat ∧
      advance (.jpV0 nnn) t = t

/-- R95 to R98: the execute phase of the four compare-and-skips adds 2 to PC when the condition holds, and changes
nothing else; the advance adds 2 more. -/
def Obligations.CompareSkipsChangePcOnly : Prop :=
  ∀ (x y : RegIdx) (kk : Byte) (s : State),
    (∃ t, exec (.seImm x kk) s = .next t ∧ ChangesOnlyPc s t ∧
      t.pc = (if s.reg x = kk then s.pc + 2 else s.pc) ∧ (advance (.seImm x kk) t).pc = t.pc + 2) ∧
    (∃ t, exec (.sneImm x kk) s = .next t ∧ ChangesOnlyPc s t ∧
      t.pc = (if s.reg x ≠ kk then s.pc + 2 else s.pc) ∧ (advance (.sneImm x kk) t).pc = t.pc + 2) ∧
    (∃ t, exec (.seReg x y) s = .next t ∧ ChangesOnlyPc s t ∧
      t.pc = (if s.reg x = s.reg y then s.pc + 2 else s.pc) ∧ (advance (.seReg x y) t).pc = t.pc + 2) ∧
    ∃ t, exec (.sneReg x y) s = .next t ∧ ChangesOnlyPc s t ∧
      t.pc = (if s.reg x ≠ s.reg y then s.pc + 2 else s.pc) ∧ (advance (.sneReg x y) t).pc = t.pc + 2

/-! ### Registers and arithmetic -/

/-- R100, R102: a load writes the constant or the other register to Vx, and nothing else. -/
def Obligations.RegisterLoads : Prop :=
  ∀ (x y : RegIdx) (kk : Byte) (s : State),
    (∃ t, exec (.ldImm x kk) s = .next t ∧ t.reg x = kk ∧ ChangesOnlyRegs [x] s t) ∧
    ∃ t, exec (.ldReg x y) s = .next t ∧ t.reg x = s.reg y ∧ ChangesOnlyRegs [x] s t

/-- R101: the sum modulo 256 to Vx; VF is not written as a flag. -/
def Obligations.AddImmediateWrapsWithoutFlag : Prop :=
  ∀ (x : RegIdx) (kk : Byte) (s : State),
    ∃ t, exec (.addImm x kk) s = .next t ∧ (t.reg x).toNat = ((s.reg x).toNat + kk.toNat) % 256 ∧
      ChangesOnlyRegs [x] s t

/-- R103, R104, R105: bitwise on all 8 bits to Vx; VF is not written as a flag. -/
def Obligations.LogicIsBitwiseWithoutFlag : Prop :=
  ∀ (x y : RegIdx) (s : State),
    (∃ t, exec (.orReg x y) s = .next t ∧ ChangesOnlyRegs [x] s t ∧
      ∀ k, k < 8 → (t.reg x).getLsbD k = ((s.reg x).getLsbD k || (s.reg y).getLsbD k)) ∧
    (∃ t, exec (.andReg x y) s = .next t ∧ ChangesOnlyRegs [x] s t ∧
      ∀ k, k < 8 → (t.reg x).getLsbD k = ((s.reg x).getLsbD k && (s.reg y).getLsbD k)) ∧
    ∃ t, exec (.xorReg x y) s = .next t ∧ ChangesOnlyRegs [x] s t ∧
      ∀ k, k < 8 → (t.reg x).getLsbD k = ((s.reg x).getLsbD k ^^ (s.reg y).getLsbD k)

/-- ADDF: the sum of the old values modulo 256 to Vx, and VF = 1 iff it exceeds 255 (42_alu.md section 4). Where Vx is VF
the later write remains: VF_WRITE_ORDER is a parameter (decision D8, log 5). -/
def Obligations.AddWithCarry : Prop :=
  ∀ (x y : RegIdx) (s : State),
    ∃ t, exec (.addf x y) s = .next t ∧ ChangesOnlyRegs [x, 15] s t ∧
      (x ≠ 15 → (t.reg x).toNat = ((s.reg x).toNat + (s.reg y).toNat) % 256 ∧
        (t.reg 15).toNat = if (s.reg x).toNat + (s.reg y).toNat > 255 then 1 else 0) ∧
      (x = 15 → s.params.vfWriteOrder = .flagThenResult →
        (t.reg 15).toNat = ((s.reg 15).toNat + (s.reg y).toNat) % 256) ∧
      (x = 15 → s.params.vfWriteOrder = .resultThenFlag →
        (t.reg 15).toNat = if (s.reg 15).toNat + (s.reg y).toNat > 255 then 1 else 0)

/-- SUB and SUBN: the difference of the old values modulo 256 to Vx, and VF = 1 iff there was no borrow (42_alu.md
section 4; conflict C2). Where Vx is VF the later write remains (decision D8, log 5). -/
def Obligations.SubtractWithNotBorrow : Prop :=
  ∀ (x y : RegIdx) (s : State),
    (∃ t, exec (.sub x y) s = .next t ∧ ChangesOnlyRegs [x, 15] s t ∧
      (x ≠ 15 → (t.reg x).toNat = (256 + (s.reg x).toNat - (s.reg y).toNat) % 256 ∧
        (t.reg 15).toNat = if (s.reg x).toNat ≥ (s.reg y).toNat then 1 else 0) ∧
      (x = 15 → s.params.vfWriteOrder = .flagThenResult →
        (t.reg 15).toNat = (256 + (s.reg 15).toNat - (s.reg y).toNat) % 256) ∧
      (x = 15 → s.params.vfWriteOrder = .resultThenFlag →
        (t.reg 15).toNat = if (s.reg 15).toNat ≥ (s.reg y).toNat then 1 else 0)) ∧
    ∃ t, exec (.subn x y) s = .next t ∧ ChangesOnlyRegs [x, 15] s t ∧
      (x ≠ 15 → (t.reg x).toNat = (256 + (s.reg y).toNat - (s.reg x).toNat) % 256 ∧
        (t.reg 15).toNat = if (s.reg y).toNat ≥ (s.reg x).toNat then 1 else 0) ∧
      (x = 15 → s.params.vfWriteOrder = .flagThenResult →
        (t.reg 15).toNat = (256 + (s.reg y).toNat - (s.reg 15).toNat) % 256) ∧
      (x = 15 → s.params.vfWriteOrder = .resultThenFlag →
        (t.reg 15).toNat = if (s.reg y).toNat ≥ (s.reg 15).toNat then 1 else 0)

/-- SHR and SHL: Vx halved or doubled modulo 256, and VF = the old bit 0 or bit 7 (42_alu.md section 4). Where Vx is VF
the later write remains (decision D8, log 5). -/
def Obligations.ShiftsCaptureTheBitShiftedOut : Prop :=
  ∀ (x y : RegIdx) (s : State),
    (∃ t, exec (.shr x y) s = .next t ∧ ChangesOnlyRegs [x, 15] s t ∧
      (x ≠ 15 → (t.reg x).toNat = (s.reg x).toNat / 2 ∧ (t.reg 15).toNat = (s.reg x).toNat % 2) ∧
      (x = 15 → s.params.vfWriteOrder = .flagThenResult → (t.reg 15).toNat = (s.reg 15).toNat / 2) ∧
      (x = 15 → s.params.vfWriteOrder = .resultThenFlag → (t.reg 15).toNat = (s.reg 15).toNat % 2)) ∧
    ∃ t, exec (.shl x y) s = .next t ∧ ChangesOnlyRegs [x, 15] s t ∧
      (x ≠ 15 → (t.reg x).toNat = (s.reg x).toNat * 2 % 256 ∧ (t.reg 15).toNat = (s.reg x).toNat / 128) ∧
      (x = 15 → s.params.vfWriteOrder = .flagThenResult → (t.reg 15).toNat = (s.reg 15).toNat * 2 % 256) ∧
      (x = 15 → s.params.vfWriteOrder = .resultThenFlag → (t.reg 15).toNat = (s.reg 15).toNat / 128)

/-- R59: the words 8xy6 and 8xyE are legal for every y, every y selects the same operation on Vx, and Vy is neither read
nor written: with another value in Vy the outcome is the same but for that value. -/
def Obligations.ShiftsIgnoreY : Prop :=
  ∀ (x y y' : RegIdx) (s : State),
    decode (0x80 + BitVec.ofNat 8 x.val) (BitVec.ofNat 8 (16 * y.val) + 0x06) = .ok (.shr x y) ∧
    decode (0x80 + BitVec.ofNat 8 x.val) (BitVec.ofNat 8 (16 * y.val) + 0x0E) = .ok (.shl x y) ∧
    exec (.shr x y) s = exec (.shr x y') s ∧ exec (.shl x y) s = exec (.shl x y') s ∧
    ∀ b t, y ≠ x → y ≠ 15 →
      (exec (.shr x y) s = .next t → exec (.shr x y) (s.setReg y b) = .next (t.setReg y b)) ∧
      (exec (.shl x y) s = .next t → exec (.shl x y) (s.setReg y b) = .next (t.setReg y b))

/-- RND: one draw of the random port, masked: no bit is set that kk has clear; nothing but Vx and the port changes
(42_alu.md section 5; the port is log 8). -/
def Obligations.RandomIsAMaskedDraw : Prop :=
  ∀ (x : RegIdx) (kk : Byte) (s : State),
    ∃ t, exec (.rnd x kk) s = .next t ∧ t = { s with v := t.v, rnd := s.rnd.advance } ∧
      (∀ k, k < 8 → (t.reg x).getLsbD k = (s.rndByte.getLsbD k && kk.getLsbD k)) ∧
      (∀ r rest, s.rnd.script = r :: rest → s.rndByte = r) ∧ SameRegsBut [x] s t ∧ SameBytes s t

/-! ### Index register and memory -/

/-- R120, R121, R122: the new value of I; no memory is accessed and nothing else changes. -/
def Obligations.IndexArithmetic : Prop :=
  ∀ (nnn : Addr12) (x : RegIdx) (s : State),
    (∃ t, exec (.ldI nnn) s = .next t ∧ t = { s with i := t.i } ∧ t.i.toNat = nnn.toNat ∧
      SameRegsBut [] s t ∧ SameBytes s t) ∧
    (∃ t, exec (.addI x) s = .next t ∧ t = { s with i := t.i } ∧
      t.i.toNat = (s.i.toNat + (s.reg x).toNat) % 65536 ∧ SameRegsBut [] s t ∧ SameBytes s t) ∧
    ∃ t, exec (.ldF x) s = .next t ∧ t = { s with i := t.i } ∧ t.i.toNat = (s.reg x).toNat * 5 ∧
      SameRegsBut [] s t ∧ SameBytes s t

/-- R123: hundreds, tens and ones at I, I + 1, I + 2 when the three fit, the fault at the lowest address out of range when
they do not; every other byte and all else as before. -/
def Obligations.BcdStoresThreeDigits : Prop :=
  ∀ (x : RegIdx) (s : State), s.MemoryCanonical →
    (s.i.toNat ≤ 4093 → ∃ t, exec (.ldB x) s = .next t ∧ t = { s with mem := t.mem } ∧
      (t.mem.read (s.effAddr 0)).toNat = (s.reg x).toNat / 100 ∧
      (t.mem.read (s.effAddr 1)).toNat = (s.reg x).toNat / 10 % 10 ∧
      (t.mem.read (s.effAddr 2)).toNat = (s.reg x).toNat % 10 ∧
      SameBytesOutside (s.effAddr 0) 3 s t ∧ SameRegsBut [] s t) ∧
    (4093 < s.i.toNat → exec (.ldB x) s = .fault (.memoryOutOfRange (max s.i.toNat 4096)))

/-- R124: V0 to Vx at I to I + x when they fit, the fault at the lowest address out of range when they do not; every other
byte, I, the registers and all else as before. -/
def Obligations.BlockStoreWritesRegisters : Prop :=
  ∀ (x : RegIdx) (s : State), s.MemoryCanonical →
    (s.i.toNat + x.val ≤ 4095 → ∃ t, exec (.stRegs x) s = .next t ∧ t = { s with mem := t.mem } ∧
      (∀ r, r ≤ x → t.mem.read (s.effAddr r.val) = s.reg r) ∧
      SameBytesOutside (s.effAddr 0) (x.val + 1) s t ∧ SameRegsBut [] s t) ∧
    (4095 < s.i.toNat + x.val → exec (.stRegs x) s = .fault (.memoryOutOfRange (max s.i.toNat 4096)))

/-- R125: the bytes at I to I + x into V0 to Vx when they fit, the fault at the lowest address out of range when they do
not; the registers above Vx, I, memory and all else as before. -/
def Obligations.BlockLoadReadsRegisters : Prop :=
  ∀ (x : RegIdx) (s : State),
    (s.i.toNat + x.val ≤ 4095 → ∃ t, exec (.ldRegs x) s = .next t ∧ t = { s with v := t.v } ∧
      (∀ r, t.reg r = if r ≤ x then s.mem.read (s.effAddr r.val) else s.reg r) ∧ SameBytes s t) ∧
    (4095 < s.i.toNat + x.val → exec (.ldRegs x) s = .fault (.memoryOutOfRange (max s.i.toNat 4096)))

/-! ### Display -/

/-- R130, R133: every pixel unset, one `Cleared` event, nothing else. -/
def Obligations.ClearUnsetsEveryPixel : Prop :=
  ∀ s : State, ∃ t, exec .cls s = .next t ∧ t = { s with disp := t.disp, events := s.events ++ [.cleared] } ∧
    (∀ px py, t.disp.pixel px py = false) ∧ SameRegsBut [] s t ∧ SameBytes s t

/-- DRW, when its n rows fit in memory: bit 7 - c of the byte at I + r is XORed onto the pixel at column Vx + c modulo 64 and
row Vy + r modulo 32; every other pixel is as before; VF = 1 iff a set pixel lay under a set bit, else 0; no other
register, no byte of memory and nothing else but the event stream changes (44_display.md section 2; the bit order is
decision D5, log 14; n = 0 is decision D30, log 15; operands are read first, decision D9, log 23). -/
def Obligations.DrawXorsTheSprite : Prop :=
  ∀ (x y : RegIdx) (n : Nibble) (s : State), n = 0 ∨ s.i.toNat + n.toNat ≤ 4096 →
    ∃ t, exec (.drw x y n) s = .next t ∧ t = { s with v := t.v, disp := t.disp, events := t.events } ∧
      (∀ (r c : Nat) (px : Fin 64) (py : Fin 32), r < n.toNat → c < 8 →
        px.val = ((s.reg x).toNat + c) % 64 → py.val = ((s.reg y).toNat + r) % 32 →
        t.disp.pixel px py = (s.disp.pixel px py ^^ (s.mem.read (s.effAddr r)).getLsbD (7 - c))) ∧
      (∀ (px : Fin 64) (py : Fin 32),
        (∀ r c, r < n.toNat → c < 8 →
          ¬ (px.val = ((s.reg x).toNat + c) % 64 ∧ py.val = ((s.reg y).toNat + r) % 32)) →
        t.disp.pixel px py = s.disp.pixel px py) ∧
      (t.reg 15 = 1 ∨ t.reg 15 = 0) ∧
      (t.reg 15 = 1 ↔ ∃ (r c : Nat) (px : Fin 64) (py : Fin 32), r < n.toNat ∧ c < 8 ∧
        px.val = ((s.reg x).toNat + c) % 64 ∧ py.val = ((s.reg y).toNat + r) % 32 ∧
        s.disp.pixel px py = true ∧ (s.mem.read (s.effAddr r)).getLsbD (7 - c) = true) ∧
      SameRegsBut [15] s t ∧ SameBytes s t

/-- DRW emits one event for each set bit of the sprite (for each bit, with NOTIFY_ZERO_BITS), rows ascending, columns left
to right, with the wrapped coordinates and the final value (44_display.md sections 1 and 2; decision D19, log 6; which
column and row a bit lands on is decision D5, log 14). -/
def Obligations.DrawEmitsTogglesInOrder : Prop :=
  ∀ (x y : RegIdx) (n : Nibble) (s t : State), exec (.drw x y n) s = .next t →
    t.events = s.events ++ (List.range n.toNat).flatMap fun r => (List.range 8).flatMap fun c =>
      if (s.mem.read (s.effAddr r)).getLsbD (7 - c) || s.params.notifyZeroBits then
        [.pixelToggled (column ((s.reg x).toNat + c)) (row ((s.reg y).toNat + r))
          (t.disp.pixel (column ((s.reg x).toNat + c)) (row ((s.reg y).toNat + r)))]
      else []

/-- "Drawing the same n-byte sprite twice at the same (x,y) restores the pre-draw pixel state exactly; collision on the
second draw is true iff any pixel was set immediately before that second draw": any pixel under a set bit of the sprite
(44_display.md section 2; which pixel lies under which bit is decision D5, log 14; with n = 0 VF is 0 by decision D30,
log 15). The registers are those of the first draw, so that x or y may be VF. -/
def Obligations.DrawingTwiceRestoresTheDisplay : Prop :=
  ∀ (x y : RegIdx) (n : Nibble) (s t : State), exec (.drw x y n) s = .next t →
    ∃ u, exec (.drw x y n) { t with v := s.v } = .next u ∧ u.disp = s.disp ∧
      (u.reg 15 = 1 ↔ ∃ (r c : Nat) (px : Fin 64) (py : Fin 32), r < n.toNat ∧ c < 8 ∧
        px.val = ((s.reg x).toNat + c) % 64 ∧ py.val = ((s.reg y).toNat + r) % 32 ∧
        t.disp.pixel px py = true ∧ (s.mem.read (s.effAddr r)).getLsbD (7 - c) = true)

/-! ### Keypad and timers -/

/-- SKP and SKNP: the execute phase adds 2 to PC when the key numbered by the whole byte of Vx is held, or is not; only PC
and the keypad port change (45_keypad_timers.md section 1; decision D16, log 8). -/
def Obligations.KeySkipsQueryTheKeypadOnce : Prop :=
  ∀ (x : RegIdx) (s : State),
    (∃ t, exec (.skp x) s = .next t ∧ t = { s with pc := t.pc, keyHeld := s.keyHeld.advance } ∧
      (t.pc = if s.isKeyHeld (s.reg x) = true then s.pc + 2 else s.pc) ∧ SameRegsBut [] s t ∧ SameBytes s t) ∧
    (∃ t, exec (.sknp x) s = .next t ∧ t = { s with pc := t.pc, keyHeld := s.keyHeld.advance } ∧
      (t.pc = if s.isKeyHeld (s.reg x) = false then s.pc + 2 else s.pc) ∧ SameRegsBut [] s t ∧ SameBytes s t) ∧
    ∀ a rest, s.keyHeld.script = a :: rest → s.isKeyHeld (s.reg x) = a

/-- LD Vx, K with a key that has arrived: Vx receives its number, STATUS is RUN, only the key port changes beside
(45_keypad_timers.md section 2; log 9). -/
def Obligations.KeyReadCompletesWithAKey : Prop :=
  ∀ (x : RegIdx) (s : State) (k : Key), s.keyArrived = some k →
    ∃ t, exec (.ldVxK x) s = .next t ∧
      t = { s with v := t.v, status := .run, keyWait := s.keyWait.advance } ∧
      (t.reg x).toNat = k.val ∧ SameRegsBut [x] s t ∧ SameBytes s t

/-- LD Vx, K with no key yet: STATUS is WAIT_KEY for that x, only the key port changes beside (45_keypad_timers.md
section 2; log 9). -/
def Obligations.KeyReadBlocksWithoutAKey : Prop :=
  ∀ (x : RegIdx) (s : State), s.keyArrived = none →
    exec (.ldVxK x) s = .next { s with status := .waitKey x, keyWait := s.keyWait.advance }

/-- R143, R144, R145: DT to Vx, DT unchanged; Vx to DT; Vx to ST; nothing else changes, TICK included. -/
def Obligations.TimerAccess : Prop :=
  ∀ (x : RegIdx) (s : State),
    (∃ t, exec (.ldVxDt x) s = .next t ∧ t.reg x = s.dt ∧ ChangesOnlyRegs [x] s t) ∧
    (∃ t, exec (.ldDtVx x) s = .next t ∧ t.dt = s.reg x ∧ t = { s with dt := t.dt } ∧
      SameRegsBut [] s t ∧ SameBytes s t) ∧
    ∃ t, exec (.ldStVx x) s = .next t ∧ t.st = s.reg x ∧ t = { s with st := t.st } ∧
      SameRegsBut [] s t ∧ SameBytes s t

/-! ### Whole-machine rules over all instructions -/

/-- VF changes only by the six instructions that write it as a flag, or as the ordinary destination of an instruction
whose x is F (10_state.md section 2). -/
def Obligations.VfIsWrittenOnlyAsFlagOrDestination : Prop :=
  ∀ (i : Instr) (s t : State), exec i s = .next t → t.reg 15 ≠ s.reg 15 →
    ((∃ x y, i = .addf x y) ∨ (∃ x y, i = .sub x y) ∨ (∃ x y, i = .shr x y) ∨ (∃ x y, i = .subn x y) ∨
      (∃ x y, i = .shl x y) ∨ ∃ x y n, i = .drw x y n) ∨
    ((∃ kk, i = .ldImm 15 kk) ∨ (∃ kk, i = .addImm 15 kk) ∨ (∃ y, i = .ldReg 15 y) ∨ (∃ y, i = .orReg 15 y) ∨
      (∃ y, i = .andReg 15 y) ∨ (∃ y, i = .xorReg 15 y) ∨ (∃ kk, i = .rnd 15 kk) ∨ i = .ldVxDt 15 ∨ i = .ldVxK 15 ∨
      i = .ldRegs 15)

/-- I is written by Annn, Fx1E and Fx29 and by nothing else (10_state.md section 3). -/
def Obligations.IndexIsWrittenOnlyByItsInstructions : Prop :=
  ∀ (i : Instr) (s t : State), exec i s = .next t → t.i ≠ s.i →
    (∃ nnn, i = .ldI nnn) ∨ (∃ x, i = .addI x) ∨ ∃ x, i = .ldF x

/-- The stack is reached by 2nnn and 00EE alone (10_state.md section 5). Written: an execute phase that changes a slot or SP
is one of theirs. Read: every other execute phase ends alike from a state that differs in the stack and SP alone, and
carries that difference through. -/
def Obligations.StackIsReachedOnlyByCallAndRet : Prop :=
  (∀ (i : Instr) (s t : State), exec i s = .next t → (t.stack ≠ s.stack ∨ t.sp ≠ s.sp) →
    (∃ nnn, i = .call nnn) ∨ i = .ret) ∧
  ∀ (i : Instr) (s : State) (slots : Vector Word 16) (p : Fin 17), (∀ nnn, i ≠ .call nnn) → i ≠ .ret →
    (∀ t, exec i s = .next t →
      exec i { s with stack := slots, sp := p } = .next { t with stack := slots, sp := p }) ∧
    ∀ f, exec i s = .fault f → exec i { s with stack := slots, sp := p } = .fault f

/-- The display is written by 00E0 and Dxyn alone, the event stream by those two and the frame end (10_state.md section 7,
44_display.md section 1, 40_execution_cycle.md section 3): of the execute phases, and of the steps (log 10, log 19). -/
def Obligations.DisplayIsWrittenOnlyByClearAndDraw : Prop :=
  (∀ (i : Instr) (s t : State), exec i s = .next t → (t.disp ≠ s.disp ∨ t.events ≠ s.events) →
    i = .cls ∨ ∃ x y n, i = .drw x y n) ∧
  ∀ s t : State, step s = .next t →
    (t.disp ≠ s.disp → s.AboutToRun .cls ∨ ∃ x y n, s.AboutToRun (.drw x y n)) ∧
    (t.events ≠ s.events →
      s.AboutToRun .cls ∨ (∃ x y n, s.AboutToRun (.drw x y n)) ∨ (s.status = .run ∧ s.phase = .frameEnd))

/-- A byte of memory changes by Fx33 and Fx55 alone, at the addresses they store to (10_state.md section 8). -/
def Obligations.MemoryIsWrittenOnlyByStores : Prop :=
  ∀ (i : Instr) (s t : State) (a : Nat), exec i s = .next t → t.mem.read a ≠ s.mem.read a →
    ((∃ x, i = .ldB x) ∧ s.effAddr 0 ≤ a ∧ a ≤ s.effAddr 2) ∨
    ∃ x : RegIdx, i = .stRegs x ∧ s.effAddr 0 ≤ a ∧ a ≤ s.effAddr x.val

/-- No instruction reads ST or the event stream: the execute phase from a state that differs in them alone ends alike, in
states that differ in them alone (10_state.md sections 6 and 10). -/
def Obligations.SoundTimerAndEventsAreNeverRead : Prop :=
  ∀ (i : Instr) (s : State) (b : Byte) (es : List Event),
    (∀ t, exec i s = .next t → ∃ t', exec i { s with st := b, events := es } = .next t' ∧
      t' = { t with st := t'.st, events := t'.events }) ∧
    ∀ f, exec i s = .fault f → exec i { s with st := b, events := es } = .fault f
end

