-- ==== Sys2Proof/Laws/State.lean ====
section
/-! SUPPORT. What each update of the state leaves in each field, and what reading a register or a pixel gives after a
write. -/

namespace Sys2Proof.Machine.State

section
variable (s : State) (r : RegIdx) (b : Byte)

@[simp] theorem setReg_v : (s.setReg r b).v = s.v.set r b := rfl
@[simp] theorem setReg_i : (s.setReg r b).i = s.i := rfl
@[simp] theorem setReg_pc : (s.setReg r b).pc = s.pc := rfl
@[simp] theorem setReg_stack : (s.setReg r b).stack = s.stack := rfl
@[simp] theorem setReg_sp : (s.setReg r b).sp = s.sp := rfl
@[simp] theorem setReg_dt : (s.setReg r b).dt = s.dt := rfl
@[simp] theorem setReg_st : (s.setReg r b).st = s.st := rfl
@[simp] theorem setReg_disp : (s.setReg r b).disp = s.disp := rfl
@[simp] theorem setReg_mem : (s.setReg r b).mem = s.mem := rfl
@[simp] theorem setReg_status : (s.setReg r b).status = s.status := rfl
@[simp] theorem setReg_tick : (s.setReg r b).tick = s.tick := rfl
@[simp] theorem setReg_phase : (s.setReg r b).phase = s.phase := rfl
@[simp] theorem setReg_events : (s.setReg r b).events = s.events := rfl
@[simp] theorem setReg_params : (s.setReg r b).params = s.params := rfl
@[simp] theorem setReg_rnd : (s.setReg r b).rnd = s.rnd := rfl
@[simp] theorem setReg_keyHeld : (s.setReg r b).keyHeld = s.keyHeld := rfl
@[simp] theorem setReg_keyWait : (s.setReg r b).keyWait = s.keyWait := rfl
@[simp] theorem setReg_quit : (s.setReg r b).quit = s.quit := rfl

end

section
variable (s : State) (w : Word)

@[simp] theorem setI_v : (s.setI w).v = s.v := rfl
@[simp] theorem setI_i : (s.setI w).i = w := rfl
@[simp] theorem setI_pc : (s.setI w).pc = s.pc := rfl
@[simp] theorem setI_stack : (s.setI w).stack = s.stack := rfl
@[simp] theorem setI_sp : (s.setI w).sp = s.sp := rfl
@[simp] theorem setI_dt : (s.setI w).dt = s.dt := rfl
@[simp] theorem setI_st : (s.setI w).st = s.st := rfl
@[simp] theorem setI_disp : (s.setI w).disp = s.disp := rfl
@[simp] theorem setI_mem : (s.setI w).mem = s.mem := rfl
@[simp] theorem setI_status : (s.setI w).status = s.status := rfl
@[simp] theorem setI_tick : (s.setI w).tick = s.tick := rfl
@[simp] theorem setI_phase : (s.setI w).phase = s.phase := rfl
@[simp] theorem setI_events : (s.setI w).events = s.events := rfl
@[simp] theorem setI_params : (s.setI w).params = s.params := rfl
@[simp] theorem setI_rnd : (s.setI w).rnd = s.rnd := rfl
@[simp] theorem setI_keyHeld : (s.setI w).keyHeld = s.keyHeld := rfl
@[simp] theorem setI_keyWait : (s.setI w).keyWait = s.keyWait := rfl
@[simp] theorem setI_quit : (s.setI w).quit = s.quit := rfl

end

section
variable (s : State) (w : Word)

@[simp] theorem setPc_v : (s.setPc w).v = s.v := rfl
@[simp] theorem setPc_i : (s.setPc w).i = s.i := rfl
@[simp] theorem setPc_pc : (s.setPc w).pc = w := rfl
@[simp] theorem setPc_stack : (s.setPc w).stack = s.stack := rfl
@[simp] theorem setPc_sp : (s.setPc w).sp = s.sp := rfl
@[simp] theorem setPc_dt : (s.setPc w).dt = s.dt := rfl
@[simp] theorem setPc_st : (s.setPc w).st = s.st := rfl
@[simp] theorem setPc_disp : (s.setPc w).disp = s.disp := rfl
@[simp] theorem setPc_mem : (s.setPc w).mem = s.mem := rfl
@[simp] theorem setPc_status : (s.setPc w).status = s.status := rfl
@[simp] theorem setPc_tick : (s.setPc w).tick = s.tick := rfl
@[simp] theorem setPc_phase : (s.setPc w).phase = s.phase := rfl
@[simp] theorem setPc_events : (s.setPc w).events = s.events := rfl
@[simp] theorem setPc_params : (s.setPc w).params = s.params := rfl
@[simp] theorem setPc_rnd : (s.setPc w).rnd = s.rnd := rfl
@[simp] theorem setPc_keyHeld : (s.setPc w).keyHeld = s.keyHeld := rfl
@[simp] theorem setPc_keyWait : (s.setPc w).keyWait = s.keyWait := rfl
@[simp] theorem setPc_quit : (s.setPc w).quit = s.quit := rfl

end

section
variable (s : State) (k : Vector Word 16) (p : Fin 17)

@[simp] theorem setStack_v : (s.setStack k p).v = s.v := rfl
@[simp] theorem setStack_i : (s.setStack k p).i = s.i := rfl
@[simp] theorem setStack_pc : (s.setStack k p).pc = s.pc := rfl
@[simp] theorem setStack_stack : (s.setStack k p).stack = k := rfl
@[simp] theorem setStack_sp : (s.setStack k p).sp = p := rfl
@[simp] theorem setStack_dt : (s.setStack k p).dt = s.dt := rfl
@[simp] theorem setStack_st : (s.setStack k p).st = s.st := rfl
@[simp] theorem setStack_disp : (s.setStack k p).disp = s.disp := rfl
@[simp] theorem setStack_mem : (s.setStack k p).mem = s.mem := rfl
@[simp] theorem setStack_status : (s.setStack k p).status = s.status := rfl
@[simp] theorem setStack_tick : (s.setStack k p).tick = s.tick := rfl
@[simp] theorem setStack_phase : (s.setStack k p).phase = s.phase := rfl
@[simp] theorem setStack_events : (s.setStack k p).events = s.events := rfl
@[simp] theorem setStack_params : (s.setStack k p).params = s.params := rfl
@[simp] theorem setStack_rnd : (s.setStack k p).rnd = s.rnd := rfl
@[simp] theorem setStack_keyHeld : (s.setStack k p).keyHeld = s.keyHeld := rfl
@[simp] theorem setStack_keyWait : (s.setStack k p).keyWait = s.keyWait := rfl
@[simp] theorem setStack_quit : (s.setStack k p).quit = s.quit := rfl

end

section
variable (s : State) (b : Byte)

@[simp] theorem setDt_v : (s.setDt b).v = s.v := rfl
@[simp] theorem setDt_i : (s.setDt b).i = s.i := rfl
@[simp] theorem setDt_pc : (s.setDt b).pc = s.pc := rfl
@[simp] theorem setDt_stack : (s.setDt b).stack = s.stack := rfl
@[simp] theorem setDt_sp : (s.setDt b).sp = s.sp := rfl
@[simp] theorem setDt_dt : (s.setDt b).dt = b := rfl
@[simp] theorem setDt_st : (s.setDt b).st = s.st := rfl
@[simp] theorem setDt_disp : (s.setDt b).disp = s.disp := rfl
@[simp] theorem setDt_mem : (s.setDt b).mem = s.mem := rfl
@[simp] theorem setDt_status : (s.setDt b).status = s.status := rfl
@[simp] theorem setDt_tick : (s.setDt b).tick = s.tick := rfl
@[simp] theorem setDt_phase : (s.setDt b).phase = s.phase := rfl
@[simp] theorem setDt_events : (s.setDt b).events = s.events := rfl
@[simp] theorem setDt_params : (s.setDt b).params = s.params := rfl
@[simp] theorem setDt_rnd : (s.setDt b).rnd = s.rnd := rfl
@[simp] theorem setDt_keyHeld : (s.setDt b).keyHeld = s.keyHeld := rfl
@[simp] theorem setDt_keyWait : (s.setDt b).keyWait = s.keyWait := rfl
@[simp] theorem setDt_quit : (s.setDt b).quit = s.quit := rfl

end

section
variable (s : State) (b : Byte)

@[simp] theorem setSt_v : (s.setSt b).v = s.v := rfl
@[simp] theorem setSt_i : (s.setSt b).i = s.i := rfl
@[simp] theorem setSt_pc : (s.setSt b).pc = s.pc := rfl
@[simp] theorem setSt_stack : (s.setSt b).stack = s.stack := rfl
@[simp] theorem setSt_sp : (s.setSt b).sp = s.sp := rfl
@[simp] theorem setSt_dt : (s.setSt b).dt = s.dt := rfl
@[simp] theorem setSt_st : (s.setSt b).st = b := rfl
@[simp] theorem setSt_disp : (s.setSt b).disp = s.disp := rfl
@[simp] theorem setSt_mem : (s.setSt b).mem = s.mem := rfl
@[simp] theorem setSt_status : (s.setSt b).status = s.status := rfl
@[simp] theorem setSt_tick : (s.setSt b).tick = s.tick := rfl
@[simp] theorem setSt_phase : (s.setSt b).phase = s.phase := rfl
@[simp] theorem setSt_events : (s.setSt b).events = s.events := rfl
@[simp] theorem setSt_params : (s.setSt b).params = s.params := rfl
@[simp] theorem setSt_rnd : (s.setSt b).rnd = s.rnd := rfl
@[simp] theorem setSt_keyHeld : (s.setSt b).keyHeld = s.keyHeld := rfl
@[simp] theorem setSt_keyWait : (s.setSt b).keyWait = s.keyWait := rfl
@[simp] theorem setSt_quit : (s.setSt b).quit = s.quit := rfl

end

section
variable (s : State) (d : Display)

@[simp] theorem setDisp_v : (s.setDisp d).v = s.v := rfl
@[simp] theorem setDisp_i : (s.setDisp d).i = s.i := rfl
@[simp] theorem setDisp_pc : (s.setDisp d).pc = s.pc := rfl
@[simp] theorem setDisp_stack : (s.setDisp d).stack = s.stack := rfl
@[simp] theorem setDisp_sp : (s.setDisp d).sp = s.sp := rfl
@[simp] theorem setDisp_dt : (s.setDisp d).dt = s.dt := rfl
@[simp] theorem setDisp_st : (s.setDisp d).st = s.st := rfl
@[simp] theorem setDisp_disp : (s.setDisp d).disp = d := rfl
@[simp] theorem setDisp_mem : (s.setDisp d).mem = s.mem := rfl
@[simp] theorem setDisp_status : (s.setDisp d).status = s.status := rfl
@[simp] theorem setDisp_tick : (s.setDisp d).tick = s.tick := rfl
@[simp] theorem setDisp_phase : (s.setDisp d).phase = s.phase := rfl
@[simp] theorem setDisp_events : (s.setDisp d).events = s.events := rfl
@[simp] theorem setDisp_params : (s.setDisp d).params = s.params := rfl
@[simp] theorem setDisp_rnd : (s.setDisp d).rnd = s.rnd := rfl
@[simp] theorem setDisp_keyHeld : (s.setDisp d).keyHeld = s.keyHeld := rfl
@[simp] theorem setDisp_keyWait : (s.setDisp d).keyWait = s.keyWait := rfl
@[simp] theorem setDisp_quit : (s.setDisp d).quit = s.quit := rfl

end

section
variable (s : State) (m : Memory)

@[simp] theorem setMem_v : (s.setMem m).v = s.v := rfl
@[simp] theorem setMem_i : (s.setMem m).i = s.i := rfl
@[simp] theorem setMem_pc : (s.setMem m).pc = s.pc := rfl
@[simp] theorem setMem_stack : (s.setMem m).stack = s.stack := rfl
@[simp] theorem setMem_sp : (s.setMem m).sp = s.sp := rfl
@[simp] theorem setMem_dt : (s.setMem m).dt = s.dt := rfl
@[simp] theorem setMem_st : (s.setMem m).st = s.st := rfl
@[simp] theorem setMem_disp : (s.setMem m).disp = s.disp := rfl
@[simp] theorem setMem_mem : (s.setMem m).mem = m := rfl
@[simp] theorem setMem_status : (s.setMem m).status = s.status := rfl
@[simp] theorem setMem_tick : (s.setMem m).tick = s.tick := rfl
@[simp] theorem setMem_phase : (s.setMem m).phase = s.phase := rfl
@[simp] theorem setMem_events : (s.setMem m).events = s.events := rfl
@[simp] theorem setMem_params : (s.setMem m).params = s.params := rfl
@[simp] theorem setMem_rnd : (s.setMem m).rnd = s.rnd := rfl
@[simp] theorem setMem_keyHeld : (s.setMem m).keyHeld = s.keyHeld := rfl
@[simp] theorem setMem_keyWait : (s.setMem m).keyWait = s.keyWait := rfl
@[simp] theorem setMem_quit : (s.setMem m).quit = s.quit := rfl

end

section
variable (s : State) (x : Status)

@[simp] theorem setStatus_v : (s.setStatus x).v = s.v := rfl
@[simp] theorem setStatus_i : (s.setStatus x).i = s.i := rfl
@[simp] theorem setStatus_pc : (s.setStatus x).pc = s.pc := rfl
@[simp] theorem setStatus_stack : (s.setStatus x).stack = s.stack := rfl
@[simp] theorem setStatus_sp : (s.setStatus x).sp = s.sp := rfl
@[simp] theorem setStatus_dt : (s.setStatus x).dt = s.dt := rfl
@[simp] theorem setStatus_st : (s.setStatus x).st = s.st := rfl
@[simp] theorem setStatus_disp : (s.setStatus x).disp = s.disp := rfl
@[simp] theorem setStatus_mem : (s.setStatus x).mem = s.mem := rfl
@[simp] theorem setStatus_status : (s.setStatus x).status = x := rfl
@[simp] theorem setStatus_tick : (s.setStatus x).tick = s.tick := rfl
@[simp] theorem setStatus_phase : (s.setStatus x).phase = s.phase := rfl
@[simp] theorem setStatus_events : (s.setStatus x).events = s.events := rfl
@[simp] theorem setStatus_params : (s.setStatus x).params = s.params := rfl
@[simp] theorem setStatus_rnd : (s.setStatus x).rnd = s.rnd := rfl
@[simp] theorem setStatus_keyHeld : (s.setStatus x).keyHeld = s.keyHeld := rfl
@[simp] theorem setStatus_keyWait : (s.setStatus x).keyWait = s.keyWait := rfl
@[simp] theorem setStatus_quit : (s.setStatus x).quit = s.quit := rfl

end

section
variable (s : State) (n : Nat)

@[simp] theorem setTick_v : (s.setTick n).v = s.v := rfl
@[simp] theorem setTick_i : (s.setTick n).i = s.i := rfl
@[simp] theorem setTick_pc : (s.setTick n).pc = s.pc := rfl
@[simp] theorem setTick_stack : (s.setTick n).stack = s.stack := rfl
@[simp] theorem setTick_sp : (s.setTick n).sp = s.sp := rfl
@[simp] theorem setTick_dt : (s.setTick n).dt = s.dt := rfl
@[simp] theorem setTick_st : (s.setTick n).st = s.st := rfl
@[simp] theorem setTick_disp : (s.setTick n).disp = s.disp := rfl
@[simp] theorem setTick_mem : (s.setTick n).mem = s.mem := rfl
@[simp] theorem setTick_status : (s.setTick n).status = s.status := rfl
@[simp] theorem setTick_tick : (s.setTick n).tick = n := rfl
@[simp] theorem setTick_phase : (s.setTick n).phase = s.phase := rfl
@[simp] theorem setTick_events : (s.setTick n).events = s.events := rfl
@[simp] theorem setTick_params : (s.setTick n).params = s.params := rfl
@[simp] theorem setTick_rnd : (s.setTick n).rnd = s.rnd := rfl
@[simp] theorem setTick_keyHeld : (s.setTick n).keyHeld = s.keyHeld := rfl
@[simp] theorem setTick_keyWait : (s.setTick n).keyWait = s.keyWait := rfl
@[simp] theorem setTick_quit : (s.setTick n).quit = s.quit := rfl

end

section
variable (s : State) (p : FramePhase)

@[simp] theorem setPhase_v : (s.setPhase p).v = s.v := rfl
@[simp] theorem setPhase_i : (s.setPhase p).i = s.i := rfl
@[simp] theorem setPhase_pc : (s.setPhase p).pc = s.pc := rfl
@[simp] theorem setPhase_stack : (s.setPhase p).stack = s.stack := rfl
@[simp] theorem setPhase_sp : (s.setPhase p).sp = s.sp := rfl
@[simp] theorem setPhase_dt : (s.setPhase p).dt = s.dt := rfl
@[simp] theorem setPhase_st : (s.setPhase p).st = s.st := rfl
@[simp] theorem setPhase_disp : (s.setPhase p).disp = s.disp := rfl
@[simp] theorem setPhase_mem : (s.setPhase p).mem = s.mem := rfl
@[simp] theorem setPhase_status : (s.setPhase p).status = s.status := rfl
@[simp] theorem setPhase_tick : (s.setPhase p).tick = s.tick := rfl
@[simp] theorem setPhase_phase : (s.setPhase p).phase = p := rfl
@[simp] theorem setPhase_events : (s.setPhase p).events = s.events := rfl
@[simp] theorem setPhase_params : (s.setPhase p).params = s.params := rfl
@[simp] theorem setPhase_rnd : (s.setPhase p).rnd = s.rnd := rfl
@[simp] theorem setPhase_keyHeld : (s.setPhase p).keyHeld = s.keyHeld := rfl
@[simp] theorem setPhase_keyWait : (s.setPhase p).keyWait = s.keyWait := rfl
@[simp] theorem setPhase_quit : (s.setPhase p).quit = s.quit := rfl

end

section
variable (s : State) (e : Event)

@[simp] theorem emit_v : (s.emit e).v = s.v := rfl
@[simp] theorem emit_i : (s.emit e).i = s.i := rfl
@[simp] theorem emit_pc : (s.emit e).pc = s.pc := rfl
@[simp] theorem emit_stack : (s.emit e).stack = s.stack := rfl
@[simp] theorem emit_sp : (s.emit e).sp = s.sp := rfl
@[simp] theorem emit_dt : (s.emit e).dt = s.dt := rfl
@[simp] theorem emit_st : (s.emit e).st = s.st := rfl
@[simp] theorem emit_disp : (s.emit e).disp = s.disp := rfl
@[simp] theorem emit_mem : (s.emit e).mem = s.mem := rfl
@[simp] theorem emit_status : (s.emit e).status = s.status := rfl
@[simp] theorem emit_tick : (s.emit e).tick = s.tick := rfl
@[simp] theorem emit_phase : (s.emit e).phase = s.phase := rfl
@[simp] theorem emit_events : (s.emit e).events = s.events ++ [e] := rfl
@[simp] theorem emit_params : (s.emit e).params = s.params := rfl
@[simp] theorem emit_rnd : (s.emit e).rnd = s.rnd := rfl
@[simp] theorem emit_keyHeld : (s.emit e).keyHeld = s.keyHeld := rfl
@[simp] theorem emit_keyWait : (s.emit e).keyWait = s.keyWait := rfl
@[simp] theorem emit_quit : (s.emit e).quit = s.quit := rfl

end

section
variable (s : State) (p : Port Byte)

@[simp] theorem setRnd_v : (s.setRnd p).v = s.v := rfl
@[simp] theorem setRnd_i : (s.setRnd p).i = s.i := rfl
@[simp] theorem setRnd_pc : (s.setRnd p).pc = s.pc := rfl
@[simp] theorem setRnd_stack : (s.setRnd p).stack = s.stack := rfl
@[simp] theorem setRnd_sp : (s.setRnd p).sp = s.sp := rfl
@[simp] theorem setRnd_dt : (s.setRnd p).dt = s.dt := rfl
@[simp] theorem setRnd_st : (s.setRnd p).st = s.st := rfl
@[simp] theorem setRnd_disp : (s.setRnd p).disp = s.disp := rfl
@[simp] theorem setRnd_mem : (s.setRnd p).mem = s.mem := rfl
@[simp] theorem setRnd_status : (s.setRnd p).status = s.status := rfl
@[simp] theorem setRnd_tick : (s.setRnd p).tick = s.tick := rfl
@[simp] theorem setRnd_phase : (s.setRnd p).phase = s.phase := rfl
@[simp] theorem setRnd_events : (s.setRnd p).events = s.events := rfl
@[simp] theorem setRnd_params : (s.setRnd p).params = s.params := rfl
@[simp] theorem setRnd_rnd : (s.setRnd p).rnd = p := rfl
@[simp] theorem setRnd_keyHeld : (s.setRnd p).keyHeld = s.keyHeld := rfl
@[simp] theorem setRnd_keyWait : (s.setRnd p).keyWait = s.keyWait := rfl
@[simp] theorem setRnd_quit : (s.setRnd p).quit = s.quit := rfl

end

section
variable (s : State) (p : Port Bool)

@[simp] theorem setKeyHeld_v : (s.setKeyHeld p).v = s.v := rfl
@[simp] theorem setKeyHeld_i : (s.setKeyHeld p).i = s.i := rfl
@[simp] theorem setKeyHeld_pc : (s.setKeyHeld p).pc = s.pc := rfl
@[simp] theorem setKeyHeld_stack : (s.setKeyHeld p).stack = s.stack := rfl
@[simp] theorem setKeyHeld_sp : (s.setKeyHeld p).sp = s.sp := rfl
@[simp] theorem setKeyHeld_dt : (s.setKeyHeld p).dt = s.dt := rfl
@[simp] theorem setKeyHeld_st : (s.setKeyHeld p).st = s.st := rfl
@[simp] theorem setKeyHeld_disp : (s.setKeyHeld p).disp = s.disp := rfl
@[simp] theorem setKeyHeld_mem : (s.setKeyHeld p).mem = s.mem := rfl
@[simp] theorem setKeyHeld_status : (s.setKeyHeld p).status = s.status := rfl
@[simp] theorem setKeyHeld_tick : (s.setKeyHeld p).tick = s.tick := rfl
@[simp] theorem setKeyHeld_phase : (s.setKeyHeld p).phase = s.phase := rfl
@[simp] theorem setKeyHeld_events : (s.setKeyHeld p).events = s.events := rfl
@[simp] theorem setKeyHeld_params : (s.setKeyHeld p).params = s.params := rfl
@[simp] theorem setKeyHeld_rnd : (s.setKeyHeld p).rnd = s.rnd := rfl
@[simp] theorem setKeyHeld_keyHeld : (s.setKeyHeld p).keyHeld = p := rfl
@[simp] theorem setKeyHeld_keyWait : (s.setKeyHeld p).keyWait = s.keyWait := rfl
@[simp] theorem setKeyHeld_quit : (s.setKeyHeld p).quit = s.quit := rfl

end

section
variable (s : State) (p : Port (Option Key))

@[simp] theorem setKeyWait_v : (s.setKeyWait p).v = s.v := rfl
@[simp] theorem setKeyWait_i : (s.setKeyWait p).i = s.i := rfl
@[simp] theorem setKeyWait_pc : (s.setKeyWait p).pc = s.pc := rfl
@[simp] theorem setKeyWait_stack : (s.setKeyWait p).stack = s.stack := rfl
@[simp] theorem setKeyWait_sp : (s.setKeyWait p).sp = s.sp := rfl
@[simp] theorem setKeyWait_dt : (s.setKeyWait p).dt = s.dt := rfl
@[simp] theorem setKeyWait_st : (s.setKeyWait p).st = s.st := rfl
@[simp] theorem setKeyWait_disp : (s.setKeyWait p).disp = s.disp := rfl
@[simp] theorem setKeyWait_mem : (s.setKeyWait p).mem = s.mem := rfl
@[simp] theorem setKeyWait_status : (s.setKeyWait p).status = s.status := rfl
@[simp] theorem setKeyWait_tick : (s.setKeyWait p).tick = s.tick := rfl
@[simp] theorem setKeyWait_phase : (s.setKeyWait p).phase = s.phase := rfl
@[simp] theorem setKeyWait_events : (s.setKeyWait p).events = s.events := rfl
@[simp] theorem setKeyWait_params : (s.setKeyWait p).params = s.params := rfl
@[simp] theorem setKeyWait_rnd : (s.setKeyWait p).rnd = s.rnd := rfl
@[simp] theorem setKeyWait_keyHeld : (s.setKeyWait p).keyHeld = s.keyHeld := rfl
@[simp] theorem setKeyWait_keyWait : (s.setKeyWait p).keyWait = p := rfl
@[simp] theorem setKeyWait_quit : (s.setKeyWait p).quit = s.quit := rfl

end

section
variable (s : State) (p : Port Bool)

@[simp] theorem setQuit_v : (s.setQuit p).v = s.v := rfl
@[simp] theorem setQuit_i : (s.setQuit p).i = s.i := rfl
@[simp] theorem setQuit_pc : (s.setQuit p).pc = s.pc := rfl
@[simp] theorem setQuit_stack : (s.setQuit p).stack = s.stack := rfl
@[simp] theorem setQuit_sp : (s.setQuit p).sp = s.sp := rfl
@[simp] theorem setQuit_dt : (s.setQuit p).dt = s.dt := rfl
@[simp] theorem setQuit_st : (s.setQuit p).st = s.st := rfl
@[simp] theorem setQuit_disp : (s.setQuit p).disp = s.disp := rfl
@[simp] theorem setQuit_mem : (s.setQuit p).mem = s.mem := rfl
@[simp] theorem setQuit_status : (s.setQuit p).status = s.status := rfl
@[simp] theorem setQuit_tick : (s.setQuit p).tick = s.tick := rfl
@[simp] theorem setQuit_phase : (s.setQuit p).phase = s.phase := rfl
@[simp] theorem setQuit_events : (s.setQuit p).events = s.events := rfl
@[simp] theorem setQuit_params : (s.setQuit p).params = s.params := rfl
@[simp] theorem setQuit_rnd : (s.setQuit p).rnd = s.rnd := rfl
@[simp] theorem setQuit_keyHeld : (s.setQuit p).keyHeld = s.keyHeld := rfl
@[simp] theorem setQuit_keyWait : (s.setQuit p).keyWait = s.keyWait := rfl
@[simp] theorem setQuit_quit : (s.setQuit p).quit = p := rfl

end

/-! ### Registers -/

@[simp] theorem reg_setReg_same (s : State) (r : RegIdx) (b : Byte) : (s.setReg r b).reg r = b := by
  simp [reg]

theorem reg_setReg_other (s : State) {r q : RegIdx} (b : Byte) (h : q ≠ r) : (s.setReg r b).reg q = s.reg q := by
  have h' : r.val ≠ q.val := fun e => h (Fin.ext e.symm)
  simp [reg, h']

theorem reg_setReg (s : State) (r q : RegIdx) (b : Byte) :
    (s.setReg r b).reg q = if q = r then b else s.reg q := by
  split
  · next h => subst h; simp
  · next h => exact reg_setReg_other s b h

/-- Two states with the same register file read alike. -/
theorem reg_congr {s t : State} (h : t.v = s.v) (r : RegIdx) : t.reg r = s.reg r := by
  simp [reg, h]

@[simp] theorem reg_setI (s : State) (w : Word) (r : RegIdx) : (s.setI w).reg r = s.reg r := rfl
@[simp] theorem reg_setPc (s : State) (w : Word) (r : RegIdx) : (s.setPc w).reg r = s.reg r := rfl
@[simp] theorem reg_setStack (s : State) (k : Vector Word 16) (p : Fin 17) (r : RegIdx) : (s.setStack k p).reg r = s.reg r := rfl
@[simp] theorem reg_setDt (s : State) (b : Byte) (r : RegIdx) : (s.setDt b).reg r = s.reg r := rfl
@[simp] theorem reg_setSt (s : State) (b : Byte) (r : RegIdx) : (s.setSt b).reg r = s.reg r := rfl
@[simp] theorem reg_setDisp (s : State) (d : Display) (r : RegIdx) : (s.setDisp d).reg r = s.reg r := rfl
@[simp] theorem reg_setMem (s : State) (m : Memory) (r : RegIdx) : (s.setMem m).reg r = s.reg r := rfl
@[simp] theorem reg_setStatus (s : State) (x : Status) (r : RegIdx) : (s.setStatus x).reg r = s.reg r := rfl
@[simp] theorem reg_setTick (s : State) (n : Nat) (r : RegIdx) : (s.setTick n).reg r = s.reg r := rfl
@[simp] theorem reg_setPhase (s : State) (p : FramePhase) (r : RegIdx) : (s.setPhase p).reg r = s.reg r := rfl
@[simp] theorem reg_emit (s : State) (e : Event) (r : RegIdx) : (s.emit e).reg r = s.reg r := rfl
@[simp] theorem reg_setRnd (s : State) (p : Port Byte) (r : RegIdx) : (s.setRnd p).reg r = s.reg r := rfl
@[simp] theorem reg_setKeyHeld (s : State) (p : Port Bool) (r : RegIdx) : (s.setKeyHeld p).reg r = s.reg r := rfl
@[simp] theorem reg_setKeyWait (s : State) (p : Port (Option Key)) (r : RegIdx) : (s.setKeyWait p).reg r = s.reg r := rfl
@[simp] theorem reg_setQuit (s : State) (p : Port Bool) (r : RegIdx) : (s.setQuit p).reg r = s.reg r := rfl

end Sys2Proof.Machine.State

namespace Sys2Proof.Machine.Display

theorem pixel_setPixel (d : Display) (x x' : Fin 64) (y y' : Fin 32) (b : Bool) :
    pixel (setPixel d x y b) x' y' = if x' = x ∧ y' = y then b else pixel d x' y' := by
  simp only [pixel, setPixel, Fin.getElem_fin, Vector.getElem_set, Fin.ext_iff]
  by_cases hy : y.val = y'.val
  · by_cases hx : x.val = x'.val
    · simp [hx, hy]
    · have hx' : ¬ x'.val = x.val := fun e => hx e.symm
      simp [hx, hx', hy]
  · have hy' : ¬ y'.val = y.val := fun e => hy e.symm
    simp [hy, hy']

/-- Two grids with the same pixels are the same grid. -/
theorem ext_pixel {d e : Display} (h : ∀ x y, pixel d x y = pixel e x y) : d = e := by
  apply Vector.ext
  intro y hy
  apply Vector.ext
  intro x hx
  exact h ⟨x, hx⟩ ⟨y, hy⟩

@[simp] theorem pixel_blank (x : Fin 64) (y : Fin 32) : pixel blank x y = false := by
  simp [pixel, blank]

end Sys2Proof.Machine.Display
end

