-- ==== Sys2Proof/Laws/Display.lean ====
section
/-! SUPPORT. The display primitives and the drawing of a sprite: pixels, collisions, events, frame. -/

namespace Sys2Proof.Machine

/-! ### One pixel -/

/-- The pixel toggled, by the wrapped coordinates (R132). -/
theorem pixel_dispXor (x y : Nat) (b : Bool) (s : State) (px : Fin 64) (py : Fin 32) :
    (dispXor x y b s).2.disp.pixel px py =
      (s.disp.pixel px py ^^ (decide (px = column x ∧ py = row y) && b)) := by
  have : (dispXor x y b s).2.disp =
      s.disp.setPixel (column x) (row y) (s.disp.pixel (column x) (row y) ^^ b) := by
    simp only [dispXor]; split <;> rfl
  rw [this, Display.pixel_setPixel]
  by_cases h : px = column x ∧ py = row y
  · obtain ⟨rfl, rfl⟩ := h; simp
  · simp [h]

/-- Set and toggled is a collision (R132). -/
theorem hit_dispXor (x y : Nat) (b : Bool) (s : State) :
    (dispXor x y b s).1 = (s.disp.pixel (column x) (row y) && b) := by
  simp only [dispXor]; cases s.disp.pixel (column x) (row y) <;> cases b <;> rfl

/-- The display primitives change the grid and the event stream alone. -/
def OnlyDisplay (s t : State) : Prop := t = { s with disp := t.disp, events := t.events }

theorem OnlyDisplay.refl (s : State) : OnlyDisplay s s := rfl

theorem OnlyDisplay.trans {s t u : State} (h : OnlyDisplay s t) (h' : OnlyDisplay t u) : OnlyDisplay s u := by
  unfold OnlyDisplay at *; rw [h'] ; rw [h]

theorem dispXor_frame (x y : Nat) (b : Bool) (s : State) : OnlyDisplay s (dispXor x y b s).2 := by
  simp only [dispXor]; split <;> rfl

/-! ### The stream and the grid -/

theorem replay_append (es : List Event) (e : Event) :
    Display.replay (es ++ [e]) = Display.replayEvent (Display.replay es) e := by
  simp [Display.replay]

theorem dispXor_keeps_replay (x y : Nat) (b : Bool) {s : State} (h : s.DisplayIsReplay) :
    (dispXor x y b s).2.DisplayIsReplay := by
  unfold State.DisplayIsReplay at *
  simp only [dispXor]
  split
  · simp [replay_append, h, Display.replayEvent]
  · next hb =>
    have hb : b = false := by cases b <;> simp_all
    subst hb
    simp only [State.setDisp_events, State.setDisp_disp, h]
    refine (Display.ext_pixel fun px py => ?_).symm
    rw [Display.pixel_setPixel]
    split
    · next e => obtain ⟨rfl, rfl⟩ := e; simp
    · rfl

/-! ### One row -/

theorem drawColumns_cons (x0 y : Nat) (bits : Byte) (c : Nat) (cs : List Nat) (acc : Bool × State) :
    drawColumns x0 y bits (c :: cs) acc =
      drawColumns x0 y bits cs
        (acc.1 || (dispXor (x0 + c) y (bits.getLsbD (7 - c)) acc.2).1,
          (dispXor (x0 + c) y (bits.getLsbD (7 - c)) acc.2).2) := rfl

/-- Whether the columns `cs` of a row of the sprite at `(x0, y)` have a set bit on a pixel. -/
def rowBit (x0 y : Nat) (bits : Byte) (cs : List Nat) (px : Fin 64) (py : Fin 32) : Bool :=
  cs.any fun c => decide (px = column (x0 + c) ∧ py = row y) && bits.getLsbD (7 - c)

theorem column_injective {x0 c d : Nat} (hc : c < 64) (hd : d < 64) (h : column (x0 + c) = column (x0 + d)) :
    c = d := by
  have := congrArg Fin.val h
  simp only [column, Fin.val_ofNat] at this
  omega

theorem row_injective {y0 c d : Nat} (hc : c < 32) (hd : d < 32) (h : row (y0 + c) = row (y0 + d)) : c = d := by
  have := congrArg Fin.val h
  simp only [row, Fin.val_ofNat] at this
  omega

theorem drawColumns_frame (x0 y : Nat) (bits : Byte) (cs : List Nat) (acc : Bool × State) :
    OnlyDisplay acc.2 (drawColumns x0 y bits cs acc).2 := by
  induction cs generalizing acc with
  | nil => exact OnlyDisplay.refl _
  | cons c cs ih => rw [drawColumns_cons]; exact (dispXor_frame _ _ _ _).trans (ih _)

theorem drawColumns_keeps_replay (x0 y : Nat) (bits : Byte) (cs : List Nat) {acc : Bool × State}
    (h : acc.2.DisplayIsReplay) : (drawColumns x0 y bits cs acc).2.DisplayIsReplay := by
  induction cs generalizing acc with
  | nil => exact h
  | cons c cs ih => rw [drawColumns_cons]; exact ih (dispXor_keeps_replay _ _ _ h)

theorem pixel_drawColumns (x0 y : Nat) (bits : Byte) (cs : List Nat) (acc : Bool × State) (hn : cs.Nodup)
    (hc : ∀ c ∈ cs, c < 64) (px : Fin 64) (py : Fin 32) :
    (drawColumns x0 y bits cs acc).2.disp.pixel px py =
      (acc.2.disp.pixel px py ^^ rowBit x0 y bits cs px py) := by
  induction cs generalizing acc with
  | nil => simp [drawColumns, rowBit]
  | cons c cs ih =>
    rw [drawColumns_cons, ih _ hn.of_cons fun d hd => hc d (List.mem_cons_of_mem c hd), pixel_dispXor]
    have hex : rowBit x0 y bits cs px py = true → ¬ (px = column (x0 + c) ∧ py = row y) := by
      intro hb e
      simp only [rowBit, List.any_eq_true, Bool.and_eq_true, decide_eq_true_eq] at hb
      obtain ⟨d, hd, ⟨hp, -⟩, -⟩ := hb
      have := column_injective (hc c List.mem_cons_self) (hc d (List.mem_cons_of_mem c hd)) (e.1.symm.trans hp)
      exact (List.nodup_cons.mp hn).1 (this ▸ hd)
    have hcons : rowBit x0 y bits (c :: cs) px py =
        ((decide (px = column (x0 + c) ∧ py = row y) && bits.getLsbD (7 - c)) || rowBit x0 y bits cs px py) := rfl
    rw [hcons]
    cases hb : rowBit x0 y bits cs px py
    · simp
    · simp [hex hb]

theorem hit_drawColumns (x0 y : Nat) (bits : Byte) (cs : List Nat) (acc : Bool × State) (hn : cs.Nodup)
    (hc : ∀ c ∈ cs, c < 64) :
    (drawColumns x0 y bits cs acc).1 =
      (acc.1 || cs.any fun c => acc.2.disp.pixel (column (x0 + c)) (row y) && bits.getLsbD (7 - c)) := by
  induction cs generalizing acc with
  | nil => simp [drawColumns]
  | cons c cs ih =>
    rw [drawColumns_cons, ih _ hn.of_cons fun d hd => hc d (List.mem_cons_of_mem c hd), hit_dispXor, List.any_cons,
      Bool.or_assoc]
    congr 2
    rw [Bool.eq_iff_iff, List.any_eq_true, List.any_eq_true]
    refine exists_congr fun d => and_congr_right fun hd => ?_
    have hne : column (x0 + d) ≠ column (x0 + c) := fun e =>
      (List.nodup_cons.mp hn).1 (column_injective (hc d (List.mem_cons_of_mem c hd)) (hc c List.mem_cons_self) e ▸ hd)
    rw [pixel_dispXor]
    simp [hne]

/-! ### A sprite -/

theorem columns_nodup : ([0, 1, 2, 3, 4, 5, 6, 7] : List Nat).Nodup := by decide

theorem columns_lt : ∀ c ∈ ([0, 1, 2, 3, 4, 5, 6, 7] : List Nat), c < 64 := by decide

theorem drawRows_frame (x0 y : Nat) (rows : List Byte) (acc : Bool × State) :
    OnlyDisplay acc.2 (drawRows x0 y rows acc).2 := by
  induction rows generalizing y acc with
  | nil => exact OnlyDisplay.refl _
  | cons b rows ih => exact (drawColumns_frame _ _ _ _ _).trans (ih _ _)

theorem drawRows_keeps_replay (x0 y : Nat) (rows : List Byte) {acc : Bool × State} (h : acc.2.DisplayIsReplay) :
    (drawRows x0 y rows acc).2.DisplayIsReplay := by
  induction rows generalizing y acc with
  | nil => exact h
  | cons b rows ih => exact ih _ (drawColumns_keeps_replay _ _ _ _ h)

/-- Whether a sprite at `(x0, y)` has a set bit on a pixel. -/
def spriteBit (x0 y : Nat) : List Byte → Fin 64 → Fin 32 → Bool
  | [], _, _ => false
  | b :: rows, px, py => rowBit x0 y b [0, 1, 2, 3, 4, 5, 6, 7] px py || spriteBit x0 (y + 1) rows px py

/-- Bit `7 - c` of row `r` lands on column `x0 + c` and row `y + r` (R131). -/
theorem spriteBit_iff (x0 y : Nat) (rows : List Byte) (px : Fin 64) (py : Fin 32) :
    spriteBit x0 y rows px py = true ↔
      ∃ r c, r < rows.length ∧ c < 8 ∧ px = column (x0 + c) ∧ py = row (y + r) ∧
        (rows.getD r 0).getLsbD (7 - c) = true := by
  induction rows generalizing y with
  | nil => simp [spriteBit]
  | cons b rows ih =>
    rw [spriteBit, Bool.or_eq_true, ih]
    constructor
    · rintro (h | ⟨r, c, hr, hc, hp, hq, hb⟩)
      · simp only [rowBit, List.any_eq_true, Bool.and_eq_true, decide_eq_true_eq] at h
        obtain ⟨c, hc, ⟨hp, hq⟩, hb⟩ := h
        have : c < 8 := by simp only [List.mem_cons, List.not_mem_nil, or_false] at hc; omega
        exact ⟨0, c, by simp, this, hp, hq, by simpa using hb⟩
      · exact ⟨r + 1, c, by simpa using hr, hc, hp, by rw [hq]; congr 1; omega, by simpa using hb⟩
    · rintro ⟨r, c, hr, hc, hp, hq, hb⟩
      cases r with
      | zero =>
        left
        simp only [rowBit, List.any_eq_true, Bool.and_eq_true, decide_eq_true_eq]
        exact ⟨c, by simp only [List.mem_cons, List.not_mem_nil, or_false]; omega, ⟨hp, hq⟩, by simpa using hb⟩
      | succ r =>
        right
        exact ⟨r, c, by simpa using hr, hc, hp, by rw [hq]; congr 1; omega, by simpa using hb⟩

/-- No pixel is toggled twice in one call (R131). -/
theorem spriteBit_below {x0 y : Nat} {rows : List Byte} {px : Fin 64} {py : Fin 32} (hl : rows.length < 32)
    (h : spriteBit x0 (y + 1) rows px py = true) : py ≠ row y := by
  rw [spriteBit_iff] at h
  obtain ⟨r, c, hr, -, -, hq, -⟩ := h
  intro e
  have : row (y + 0) = row (y + (1 + r)) := by rw [← Nat.add_assoc, ← hq, e]; rfl
  have := row_injective (by omega) (by omega) this
  omega

theorem rowBit_row {x0 y : Nat} {b : Byte} {cs : List Nat} {px : Fin 64} {py : Fin 32}
    (h : rowBit x0 y b cs px py = true) : py = row y := by
  simp only [rowBit, List.any_eq_true, Bool.and_eq_true, decide_eq_true_eq] at h
  obtain ⟨c, -, ⟨-, hq⟩, -⟩ := h
  exact hq

/-- The pixels after a sprite: XOR with its bits (R131, R132). -/
theorem pixel_drawRows (x0 y : Nat) (rows : List Byte) (acc : Bool × State) (hl : rows.length ≤ 32) (px : Fin 64)
    (py : Fin 32) :
    (drawRows x0 y rows acc).2.disp.pixel px py = (acc.2.disp.pixel px py ^^ spriteBit x0 y rows px py) := by
  induction rows generalizing y acc with
  | nil => simp [drawRows, spriteBit]
  | cons b rows ih =>
    simp only [List.length_cons] at hl
    rw [drawRows, ih _ _ (by omega), pixel_drawColumns _ _ _ _ _ columns_nodup columns_lt, spriteBit]
    cases h : spriteBit x0 (y + 1) rows px py
    · simp
    · have hne := spriteBit_below (by omega) h
      cases h' : rowBit x0 y b [0, 1, 2, 3, 4, 5, 6, 7] px py
      · simp
      · exact absurd (rowBit_row h') hne

/-- The collision of a call: some set pixel lies under a set bit of the sprite (R131). -/
theorem hit_drawRows (x0 y : Nat) (rows : List Byte) (acc : Bool × State) (hl : rows.length ≤ 32) :
    (drawRows x0 y rows acc).1 = true ↔
      acc.1 = true ∨ ∃ px py, acc.2.disp.pixel px py = true ∧ spriteBit x0 y rows px py = true := by
  induction rows generalizing y acc with
  | nil => simp [drawRows, spriteBit]
  | cons b rows ih =>
    simp only [List.length_cons] at hl
    rw [drawRows, ih _ _ (by omega), hit_drawColumns _ _ _ _ _ columns_nodup columns_lt, Bool.or_eq_true, or_assoc]
    refine or_congr_right ?_
    have key : ∀ px py, spriteBit x0 (y + 1) rows px py = true →
        (drawColumns x0 y b [0, 1, 2, 3, 4, 5, 6, 7] acc).2.disp.pixel px py = acc.2.disp.pixel px py := by
      intro px py h
      have hne := spriteBit_below (by omega) h
      rw [pixel_drawColumns _ _ _ _ _ columns_nodup columns_lt]
      cases h' : rowBit x0 y b [0, 1, 2, 3, 4, 5, 6, 7] px py
      · simp
      · exact absurd (rowBit_row h') hne
    constructor
    · rintro (h | ⟨px, py, hp, hs⟩)
      · rw [List.any_eq_true] at h
        obtain ⟨c, hc, h⟩ := h
        rw [Bool.and_eq_true] at h
        refine ⟨column (x0 + c), row y, h.1, ?_⟩
        rw [spriteBit, Bool.or_eq_true]
        left
        rw [rowBit, List.any_eq_true]
        exact ⟨c, hc, by simp [h.2]⟩
      · exact ⟨px, py, key px py hs ▸ hp, by rw [spriteBit, hs, Bool.or_true]⟩
    · rintro ⟨px, py, hp, hs⟩
      rw [spriteBit, Bool.or_eq_true] at hs
      rcases hs with hs | hs
      · left
        rw [rowBit, List.any_eq_true] at hs
        obtain ⟨c, hc, hs⟩ := hs
        rw [Bool.and_eq_true, decide_eq_true_eq] at hs
        obtain ⟨⟨rfl, rfl⟩, hb⟩ := hs
        exact List.any_eq_true.mpr ⟨c, hc, by rw [hp, hb]; rfl⟩
      · right
        exact ⟨px, py, (key px py hs).trans hp, hs⟩

end Sys2Proof.Machine
end

