-- ==== Sys2Proof/Laws/Encoding.lean ====
section
/-! SUPPORT. The fields of a word put together by a format, and the word put together from its fields. -/

namespace Sys2Proof

theorem bit_append {n m : Nat} (a : BitVec n) (b : BitVec m) (i : Nat) :
    (a ++ b).getLsbD i = if i < m then b.getLsbD i else a.getLsbD (i - m) :=
  BitVec.getLsbD_append

theorem toNat_append_mul {n m : Nat} (a : BitVec n) (b : BitVec m) :
    (a ++ b).toNat = a.toNat * 2 ^ m + b.toNat := by
  rw [BitVec.toNat_append, Nat.shiftLeft_eq, Nat.mul_comm, Nat.two_pow_add_eq_or_of_lt b.isLt]

theorem toNat_extract {w : Nat} (a : BitVec w) (lo n : Nat) :
    (a.extractLsb' lo n).toNat = a.toNat / 2 ^ lo % 2 ^ n := by
  rw [BitVec.extractLsb'_toNat, Nat.shiftRight_eq_div_pow]

/-! ### Words and fields as numbers (R51, R52) -/

theorem toNat_wordOf (b0 b1 : Byte) : (wordOf b0 b1).toNat = b0.toNat * 256 + b1.toNat := toNat_append_mul b0 b1

theorem toNat_formatNnn (op : Nibble) (nnn : Addr12) :
    (formatNnn op nnn).toNat = op.toNat * 4096 + nnn.toNat := toNat_append_mul op nnn

theorem toNat_formatXkk (op : Nibble) (x : RegIdx) (kk : Byte) :
    (formatXkk op x kk).toNat = op.toNat * 4096 + x.val * 256 + kk.toNat := by
  refine (toNat_append_mul _ _).trans ?_
  have hx : (BitVec.ofFin (w := 4) x).toNat = x.val := rfl
  rw [toNat_append_mul, hx]
  omega

theorem toNat_formatXyn (op : Nibble) (x y : RegIdx) (n : Nibble) :
    (formatXyn op x y n).toNat = op.toNat * 4096 + x.val * 256 + y.val * 16 + n.toNat := by
  refine (toNat_append_mul _ _).trans ?_
  have hx : (BitVec.ofFin (w := 4) x).toNat = x.val := rfl
  have hy : (BitVec.ofFin (w := 4) y).toNat = y.val := rfl
  rw [toNat_append_mul, toNat_append_mul, hx, hy]
  omega

theorem toNat_highByte (w : Word) : (highByte w).toNat = w.toNat / 256 % 256 := toNat_extract w 8 8

theorem toNat_lowByte (w : Word) : (lowByte w).toNat = w.toNat % 256 :=
  (toNat_extract w 0 8).trans (by rw [Nat.pow_zero, Nat.div_one]; rfl)

theorem toNat_fieldOp (w : Word) : (fieldOp w).toNat = w.toNat / 4096 % 16 := toNat_extract w 12 4

theorem val_fieldX (w : Word) : (fieldX w).val = w.toNat / 256 % 16 := toNat_extract w 8 4

theorem val_fieldY (w : Word) : (fieldY w).val = w.toNat / 16 % 16 := toNat_extract w 4 4

theorem toNat_fieldN (w : Word) : (fieldN w).toNat = w.toNat % 16 :=
  (toNat_extract w 0 4).trans (by rw [Nat.pow_zero, Nat.div_one]; rfl)

theorem toNat_fieldKk (w : Word) : (fieldKk w).toNat = w.toNat % 256 :=
  (toNat_extract w 0 8).trans (by rw [Nat.pow_zero, Nat.div_one]; rfl)

theorem toNat_fieldNnn (w : Word) : (fieldNnn w).toNat = w.toNat % 4096 :=
  (toNat_extract w 0 12).trans (by rw [Nat.pow_zero, Nat.div_one]; rfl)

/-! ### The fields of each format -/

@[simp] theorem fieldOp_formatNnn (op : Nibble) (nnn : Addr12) : fieldOp (formatNnn op nnn) = op := by
  apply BitVec.eq_of_toNat_eq
  rw [toNat_fieldOp, toNat_formatNnn]
  have := op.isLt
  have := nnn.isLt
  omega

@[simp] theorem fieldNnn_formatNnn (op : Nibble) (nnn : Addr12) : fieldNnn (formatNnn op nnn) = nnn := by
  apply BitVec.eq_of_toNat_eq
  rw [toNat_fieldNnn, toNat_formatNnn]
  have := nnn.isLt
  omega

@[simp] theorem fieldOp_formatXkk (op : Nibble) (x : RegIdx) (kk : Byte) : fieldOp (formatXkk op x kk) = op := by
  apply BitVec.eq_of_toNat_eq
  rw [toNat_fieldOp, toNat_formatXkk]
  have := op.isLt
  have := x.isLt
  have := kk.isLt
  omega

@[simp] theorem fieldX_formatXkk (op : Nibble) (x : RegIdx) (kk : Byte) : fieldX (formatXkk op x kk) = x := by
  apply Fin.ext
  rw [val_fieldX, toNat_formatXkk]
  have := x.isLt
  have := kk.isLt
  omega

@[simp] theorem fieldKk_formatXkk (op : Nibble) (x : RegIdx) (kk : Byte) : fieldKk (formatXkk op x kk) = kk := by
  apply BitVec.eq_of_toNat_eq
  rw [toNat_fieldKk, toNat_formatXkk]
  have := kk.isLt
  omega

@[simp] theorem fieldOp_formatXyn (op : Nibble) (x y : RegIdx) (n : Nibble) : fieldOp (formatXyn op x y n) = op := by
  apply BitVec.eq_of_toNat_eq
  rw [toNat_fieldOp, toNat_formatXyn]
  have := op.isLt
  have := x.isLt
  have := y.isLt
  have := n.isLt
  omega

@[simp] theorem fieldX_formatXyn (op : Nibble) (x y : RegIdx) (n : Nibble) : fieldX (formatXyn op x y n) = x := by
  apply Fin.ext
  rw [val_fieldX, toNat_formatXyn]
  have := x.isLt
  have := y.isLt
  have := n.isLt
  omega

@[simp] theorem fieldY_formatXyn (op : Nibble) (x y : RegIdx) (n : Nibble) : fieldY (formatXyn op x y n) = y := by
  apply Fin.ext
  rw [val_fieldY, toNat_formatXyn]
  have := y.isLt
  have := n.isLt
  omega

@[simp] theorem fieldN_formatXyn (op : Nibble) (x y : RegIdx) (n : Nibble) : fieldN (formatXyn op x y n) = n := by
  apply BitVec.eq_of_toNat_eq
  rw [toNat_fieldN, toNat_formatXyn]
  have := n.isLt
  omega

/-! ### The word from its fields -/

@[simp] theorem wordOf_bytes (w : Word) : wordOf (highByte w) (lowByte w) = w := by
  apply BitVec.eq_of_toNat_eq
  rw [toNat_wordOf, toNat_highByte, toNat_lowByte]
  have := w.isLt
  omega

@[simp] theorem highByte_wordOf (b0 b1 : Byte) : highByte (wordOf b0 b1) = b0 := by
  apply BitVec.eq_of_toNat_eq
  rw [toNat_highByte, toNat_wordOf]
  have := b0.isLt
  have := b1.isLt
  omega

@[simp] theorem lowByte_wordOf (b0 b1 : Byte) : lowByte (wordOf b0 b1) = b1 := by
  apply BitVec.eq_of_toNat_eq
  rw [toNat_lowByte, toNat_wordOf]
  have := b1.isLt
  omega

theorem formatNnn_fields (w : Word) : formatNnn (fieldOp w) (fieldNnn w) = w := by
  apply BitVec.eq_of_toNat_eq
  rw [toNat_formatNnn, toNat_fieldOp, toNat_fieldNnn]
  have := w.isLt
  omega

theorem formatXkk_fields (w : Word) : formatXkk (fieldOp w) (fieldX w) (fieldKk w) = w := by
  apply BitVec.eq_of_toNat_eq
  rw [toNat_formatXkk, toNat_fieldOp, val_fieldX, toNat_fieldKk]
  have := w.isLt
  omega

theorem formatXyn_fields (w : Word) : formatXyn (fieldOp w) (fieldX w) (fieldY w) (fieldN w) = w := by
  apply BitVec.eq_of_toNat_eq
  rw [toNat_formatXyn, toNat_fieldOp, val_fieldX, val_fieldY, toNat_fieldN]
  have := w.isLt
  omega

/-! ### The masks of R55 -/

theorem formatNnn_mask (op : Nibble) (nnn : Addr12) : formatNnn op nnn &&& 0xF000 = formatNnn op 0 := by
  apply BitVec.eq_of_getLsbD_eq
  intro i hi
  rw [BitVec.getLsbD_and, formatNnn, formatNnn, bit_append, bit_append]
  interval_cases i <;> simp

theorem formatXkk_mask_op (op : Nibble) (x : RegIdx) (kk : Byte) : formatXkk op x kk &&& 0xF000 = formatNnn op 0 := by
  apply BitVec.eq_of_getLsbD_eq
  intro i hi
  rw [BitVec.getLsbD_and, formatXkk, formatNnn, bit_append, bit_append, bit_append]
  interval_cases i <;> simp

theorem formatXkk_mask (op : Nibble) (x : RegIdx) (kk : Byte) : formatXkk op x kk &&& 0xF0FF = formatXkk op 0 kk := by
  apply BitVec.eq_of_getLsbD_eq
  intro i hi
  rw [BitVec.getLsbD_and, formatXkk, formatXkk, bit_append, bit_append, bit_append, bit_append]
  interval_cases i <;> simp

theorem formatXyn_mask_op (op : Nibble) (x y : RegIdx) (n : Nibble) :
    formatXyn op x y n &&& 0xF000 = formatNnn op 0 := by
  apply BitVec.eq_of_getLsbD_eq
  intro i hi
  rw [BitVec.getLsbD_and, formatXyn, formatNnn, bit_append, bit_append, bit_append, bit_append]
  interval_cases i <;> simp

theorem formatXyn_mask (op : Nibble) (x y : RegIdx) (n : Nibble) :
    formatXyn op x y n &&& 0xF00F = formatXyn op 0 0 n := by
  apply BitVec.eq_of_getLsbD_eq
  intro i hi
  rw [BitVec.getLsbD_and, formatXyn, formatXyn, bit_append, bit_append, bit_append, bit_append, bit_append, bit_append]
  interval_cases i <;> simp

end Sys2Proof
end

