-- ==== Sys2Proof/Laws/Memory.lean ====
section
/-! SUPPORT. Reading after writing, and the canonical form that every memory operation keeps. -/

namespace Sys2Proof.Machine.Memory

@[simp] theorem read_nil (a : Nat) : read [] a = unlisted a := rfl

theorem read_listed (b : Nat) (w : Byte) (m : Memory) (a : Nat) :
    read ((b, w) :: m) a = if a = b then w else read m a := rfl

theorem wfFrom_listed (lo b : Nat) (w : Byte) (m : Memory) :
    wfFrom lo ((b, w) :: m) = true ↔
      lo ≤ b ∧ b < Config.memSize ∧ w ≠ unlisted b ∧ wfFrom (b + 1) m = true := by
  simp [wfFrom, and_assoc]

theorem wfFrom_mono {lo lo' : Nat} {m : Memory} (h : wfFrom lo m = true) (hl : lo' ≤ lo) : wfFrom lo' m = true := by
  cases m with
  | nil => rfl
  | cons c m =>
    obtain ⟨b, w⟩ := c
    rw [wfFrom_listed] at h ⊢
    exact ⟨hl.trans h.1, h.2⟩

/-- An address below all listed ones reads as unlisted. -/
theorem read_below {lo a : Nat} {m : Memory} (h : wfFrom lo m = true) (ha : a < lo) : read m a = unlisted a := by
  induction m generalizing lo with
  | nil => rfl
  | cons c m ih =>
    obtain ⟨b, w⟩ := c
    rw [wfFrom_listed] at h
    rw [read_listed, if_neg (by omega)]
    exact ih h.2.2.2 (by omega)

theorem read_cons_other {a b : Nat} (w : Byte) (m : Memory) (h : b ≠ a) : read (cons a w m) b = read m b := by
  unfold cons
  split
  · rfl
  · rw [read_listed, if_neg h]

theorem read_cons_same {a lo : Nat} (w : Byte) {m : Memory} (h : wfFrom lo m = true) (ha : a < lo) :
    read (cons a w m) a = w := by
  unfold cons
  split
  · next e => rw [read_below h ha, e]
  · rw [read_listed, if_pos rfl]

theorem wfFrom_cons {lo a : Nat} {w : Byte} {m : Memory} (h : wfFrom (a + 1) m = true) (hl : lo ≤ a)
    (ha : a < Config.memSize) : wfFrom lo (cons a w m) = true := by
  unfold cons
  split
  · exact wfFrom_mono h (by omega)
  · next e => exact (wfFrom_listed lo a w m).mpr ⟨hl, ha, e, h⟩

/-- A write leaves every other address alone, whatever the list. -/
theorem read_write_other (m : Memory) {a b : Nat} (w : Byte) (h : b ≠ a) : read (write m a w) b = read m b := by
  induction m with
  | nil => exact read_cons_other w [] h
  | cons c m ih =>
    obtain ⟨d, u⟩ := c
    unfold write
    split
    · exact read_cons_other w _ h
    · split
      · next e => rw [read_cons_other w _ h, read_listed, if_neg (by omega)]
      · rw [read_listed, read_listed, ih]

/-- A read after a write to the same address gives the byte written (R38). -/
theorem read_write_same {lo : Nat} {m : Memory} (h : wfFrom lo m = true) (a : Nat) (w : Byte) :
    read (write m a w) a = w := by
  induction m generalizing lo with
  | nil => exact read_cons_same (lo := a + 1) w rfl (Nat.lt_succ_self a)
  | cons c m ih =>
    obtain ⟨d, u⟩ := c
    have h' := (wfFrom_listed lo d u m).mp h
    unfold write
    split
    · next e =>
      exact read_cons_same w ((wfFrom_listed d d u m).mpr ⟨Nat.le_refl d, h'.2⟩) e
    · split
      · next e => subst e; exact read_cons_same w h'.2.2.2 (Nat.lt_succ_self a)
      · next e => rw [read_listed, if_neg e]; exact ih h'.2.2.2

theorem read_write {m : Memory} (h : wf m = true) (a b : Nat) (w : Byte) :
    read (write m a w) b = if b = a then w else read m b := by
  split
  · next e => subst e; exact read_write_same h b w
  · next e => exact read_write_other m w e

theorem wfFrom_write {lo : Nat} {m : Memory} (h : wfFrom lo m = true) {a : Nat} (w : Byte) (hl : lo ≤ a)
    (ha : a < Config.memSize) : wfFrom lo (write m a w) = true := by
  induction m generalizing lo with
  | nil => exact wfFrom_cons rfl hl ha
  | cons c m ih =>
    obtain ⟨d, u⟩ := c
    have h' := (wfFrom_listed lo d u m).mp h
    unfold write
    split
    · next e =>
      exact wfFrom_cons ((wfFrom_listed (a + 1) d u m).mpr ⟨by omega, h'.2⟩) hl ha
    · split
      · next e => subst e; exact wfFrom_cons h'.2.2.2 hl ha
      · next e =>
        exact (wfFrom_listed lo d u _).mpr ⟨h'.1, h'.2.1, h'.2.2.1, ih h'.2.2.2 (by omega)⟩

/-- A write inside the array keeps the canonical form. -/
theorem wf_write {m : Memory} (h : wf m = true) {a : Nat} (w : Byte) (ha : a < Config.memSize) :
    wf (write m a w) = true :=
  wfFrom_write h w (Nat.zero_le a) ha

/-- A buffer that fits keeps the canonical form. -/
theorem wf_load {ws : List Byte} {m : Memory} {a : Nat} (h : wf m = true) (ha : a + ws.length ≤ Config.memSize) :
    wf (load a ws m) = true := by
  induction ws generalizing a m with
  | nil => exact h
  | cons w ws ih =>
    simp only [List.length_cons] at ha
    exact ih (wf_write h w (by omega)) (by omega)

/-- What a loaded buffer leaves at each address. -/
theorem read_load {ws : List Byte} {m : Memory} {a : Nat} (h : wf m = true) (ha : a + ws.length ≤ Config.memSize)
    (b : Nat) : read (load a ws m) b = if a ≤ b ∧ b < a + ws.length then ws.getD (b - a) 0 else read m b := by
  induction ws generalizing a m with
  | nil => rw [if_neg (by simp only [List.length_nil]; omega)]; rfl
  | cons w ws ih =>
    simp only [List.length_cons] at ha ⊢
    rw [load, ih (wf_write h w (by omega)) (by omega), read_write h]
    by_cases hb : b = a
    · subst hb
      rw [if_neg (by omega), if_pos rfl, if_pos (by omega), Nat.sub_self, List.getD_cons_zero]
    · by_cases hr : a + 1 ≤ b ∧ b < a + 1 + ws.length
      · rw [if_pos hr, if_pos (by omega), show b - a = (b - (a + 1)) + 1 by omega, List.getD_cons_succ]
      · rw [if_neg hr, if_neg hb, if_neg (by omega)]

/-- Canonical memories that read alike are the same list. -/
theorem ext_read {lo : Nat} {m m' : Memory} (h : wfFrom lo m = true) (h' : wfFrom lo m' = true)
    (e : ∀ a, read m a = read m' a) : m = m' := by
  induction m generalizing lo m' with
  | nil =>
    cases m' with
    | nil => rfl
    | cons c m' =>
      obtain ⟨b, w⟩ := c
      rw [wfFrom_listed] at h'
      have := e b
      rw [read_nil, read_listed, if_pos rfl] at this
      exact absurd this.symm h'.2.2.1
  | cons c m ih =>
    obtain ⟨b, w⟩ := c
    rw [wfFrom_listed] at h
    cases m' with
    | nil =>
      have := e b
      rw [read_nil, read_listed, if_pos rfl] at this
      exact absurd this h.2.2.1
    | cons c' m' =>
      obtain ⟨b', w'⟩ := c'
      rw [wfFrom_listed] at h'
      rcases Nat.lt_trichotomy b b' with hb | hb | hb
      · have := e b
        rw [read_listed, if_pos rfl, read_listed, if_neg (by omega), read_below h'.2.2.2 (by omega)] at this
        exact absurd this h.2.2.1
      · subst hb
        have hw : w = w' := by simpa [read_listed] using e b
        rw [hw, ih h.2.2.2 h'.2.2.2 ?_]
        intro a
        by_cases ha : a = b
        · subst ha
          rw [read_below h.2.2.2 (Nat.lt_succ_self a), read_below h'.2.2.2 (Nat.lt_succ_self a)]
        · simpa [read_listed, ha] using e a
      · have := e b'
        rw [read_listed, read_listed, if_pos rfl, if_neg (by omega), read_below h.2.2.2 (by omega)] at this
        exact absurd this.symm h'.2.2.1

end Sys2Proof.Machine.Memory
end

