-- ==== Sys2Proof/Laws/Ops.lean ====
section
/-! SUPPORT. One law for each shared operation: everything it can answer. -/

namespace Sys2Proof.Machine

/-! ### Memory -/

theorem memRead_ok (s : State) {a : Nat} (h : a < Config.memSize) : memRead s a = .ok (s.mem.read a) := if_pos h

theorem memRead_error (s : State) {a : Nat} (h : Config.memSize ≤ a) :
    memRead s a = .error (.memoryOutOfRange a) := if_neg (Nat.not_lt.mpr h)

theorem memWrite_ok (s : State) {a : Nat} (w : Byte) (h : a < Config.memSize) :
    memWrite s a w = .ok (s.setMem (s.mem.write a w)) := if_pos h

theorem memWrite_error (s : State) {a : Nat} (w : Byte) (h : Config.memSize ≤ a) :
    memWrite s a w = .error (.memoryOutOfRange a) := if_neg (Nat.not_lt.mpr h)

/-- A block read that fits answers the bytes, in ascending order. -/
theorem readBlock_ok (s : State) {a n : Nat} (h : n = 0 ∨ a + n ≤ Config.memSize) :
    readBlock s a n = .ok ((List.range n).map fun k => s.mem.read (a + k)) := by
  induction n generalizing a with
  | zero => rfl
  | succ n ih =>
    have h' : a + (n + 1) ≤ Config.memSize := by omega
    rw [readBlock, memRead_ok s (by omega), ih (by omega), List.range_succ_eq_map]
    simp [Function.comp_def, Nat.add_assoc, Nat.add_comm 1]

/-- A block read that does not fit reports the lowest address out of range (R154). -/
theorem readBlock_error (s : State) {a n : Nat} (hn : n ≠ 0) (h : Config.memSize < a + n) :
    readBlock s a n = .error (.memoryOutOfRange (max a Config.memSize)) := by
  induction n generalizing a with
  | zero => exact absurd rfl hn
  | succ n ih =>
    rw [readBlock]
    rcases Nat.lt_or_ge a Config.memSize with ha | ha
    · rw [memRead_ok s ha, ih (by omega) (by omega), Nat.max_eq_right ha, Nat.max_eq_right (Nat.le_of_lt ha)]
    · rw [memRead_error s ha, Nat.max_eq_left ha]

/-- A block write that fits leaves the buffer in memory and all else alone. -/
theorem writeBlock_ok (s : State) {a : Nat} {ws : List Byte} (h : ws = [] ∨ a + ws.length ≤ Config.memSize) :
    writeBlock s a ws = .ok (s.setMem (Memory.load a ws s.mem)) := by
  induction ws generalizing a s with
  | nil => rfl
  | cons w ws ih =>
    have h' : a + (ws.length + 1) ≤ Config.memSize := by simpa using h
    rw [writeBlock, memWrite_ok s w (by omega)]
    exact (ih _ (by omega)).trans rfl

/-- A block write that does not fit reports the lowest address out of range (R154). -/
theorem writeBlock_error (s : State) {a : Nat} {ws : List Byte} (hw : ws ≠ [])
    (h : Config.memSize < a + ws.length) :
    writeBlock s a ws = .error (.memoryOutOfRange (max a Config.memSize)) := by
  induction ws generalizing a s with
  | nil => exact absurd rfl hw
  | cons w ws ih =>
    simp only [List.length_cons] at h
    rw [writeBlock]
    rcases Nat.lt_or_ge a Config.memSize with ha | ha
    · rw [memWrite_ok s w ha, Nat.max_eq_right (Nat.le_of_lt ha)]
      refine (ih _ ?_ (by omega)).trans (by rw [Nat.max_eq_right ha])
      intro e
      subst e
      simp only [List.length_nil] at h
      omega
    · rw [memWrite_error s w ha, Nat.max_eq_left ha]

/-- Whatever a block write answers, it changed memory alone, and kept its canonical form. -/
theorem writeBlock_inv {s t : State} {a : Nat} {ws : List Byte} (h : writeBlock s a ws = .ok t) :
    t = s.setMem (Memory.load a ws s.mem) ∧ (ws = [] ∨ a + ws.length ≤ Config.memSize) := by
  by_cases hf : ws = [] ∨ a + ws.length ≤ Config.memSize
  · rw [writeBlock_ok s hf] at h
    exact ⟨(Except.ok.inj h).symm, hf⟩
  · rw [not_or] at hf
    rw [writeBlock_error s hf.1 (by omega)] at h
    exact absurd h (by simp)

/-! ### Registers in sequence -/

@[simp] theorem length_regsUpTo (s : State) (x : RegIdx) : (s.regsUpTo x).length = x.val + 1 := by
  simp [State.regsUpTo]

theorem getD_regsUpTo (s : State) (x r : RegIdx) (h : r ≤ x) : (s.regsUpTo x).getD r.val 0 = s.reg r := by
  have hr : r.val < x.val + 1 := Nat.lt_succ_of_le h
  simp [State.regsUpTo, State.reg, List.getD_eq_getElem?_getD, hr]

/-- A sequence written to the registers changes registers alone. -/
theorem setRegsFrom_frame (s : State) (k : Nat) (bs : List Byte) :
    s.setRegsFrom k bs = { s with v := (s.setRegsFrom k bs).v } := by
  induction bs generalizing k s with
  | nil => rfl
  | cons b bs ih =>
    unfold State.setRegsFrom
    split
    · rw [ih]; rfl
    · rfl

theorem reg_setRegsFrom (s : State) (k : Nat) (bs : List Byte) (r : RegIdx) :
    (s.setRegsFrom k bs).reg r = if k ≤ r.val ∧ r.val < k + bs.length then bs.getD (r.val - k) 0 else s.reg r := by
  induction bs generalizing k s with
  | nil => rw [if_neg (by simp only [List.length_nil]; omega)]; rfl
  | cons b bs ih =>
    have hr := r.isLt
    unfold State.setRegsFrom
    simp only [List.length_cons]
    split
    · next hk =>
      rw [ih, State.reg_setReg]
      by_cases e : r.val = k
      · have e' : r = ⟨k, hk⟩ := Fin.ext e
        rw [if_neg (by omega), if_pos e', if_pos (by omega), e, Nat.sub_self, List.getD_cons_zero]
      · have e' : r ≠ ⟨k, hk⟩ := fun h => e (congrArg Fin.val h)
        by_cases hin : k + 1 ≤ r.val ∧ r.val < k + 1 + bs.length
        · rw [if_pos hin, if_pos (by omega), show r.val - k = (r.val - (k + 1)) + 1 by omega, List.getD_cons_succ]
        · rw [if_neg hin, if_neg e', if_neg (by omega)]
    · rw [if_neg (by omega)]

/-- The result and the flag written to two registers: the order does not matter (R84). -/
theorem reg_writeResultAndFlag (s : State) {x : RegIdx} (hx : x ≠ 15) (res flag : Byte) (r : RegIdx) :
    (s.writeResultAndFlag x res flag).reg r = if r = x then res else if r = 15 then flag else s.reg r := by
  unfold State.writeResultAndFlag
  split
  · simp [State.reg_setReg]
  · simp only [State.reg_setReg]
    by_cases h : r = 15
    · subst h; simp [hx.symm]
    · simp [h]

/-- Both written to VF: the later write remains (R84). -/
theorem reg_writeResultAndFlag_vf (s : State) (res flag : Byte) (r : RegIdx) :
    (s.writeResultAndFlag 15 res flag).reg r =
      if r = 15 then (if s.params.vfWriteOrder = .flagThenResult then res else flag) else s.reg r := by
  unfold State.writeResultAndFlag
  split <;> rename_i h <;> by_cases hr : r = 15 <;> simp [h, hr, State.reg_setReg]

theorem writeResultAndFlag_frame (s : State) (x : RegIdx) (res flag : Byte) :
    s.writeResultAndFlag x res flag = { s with v := (s.writeResultAndFlag x res flag).v } := by
  unfold State.writeResultAndFlag
  split <;> rfl

/-! ### Stack -/

theorem push_ok (s : State) (w : Word) (h : s.sp.val < 16) :
    push s w = .ok (s.setStack (s.stack.set s.sp.val w h) ⟨s.sp.val + 1, Nat.succ_lt_succ h⟩) := dif_pos h

theorem push_full (s : State) (w : Word) (h : s.sp.val = 16) : push s w = .error .stackOverflow :=
  dif_neg (by simp [h])

theorem pop_ok (s : State) (p : Nat) (h : s.sp.val = p + 1) :
    pop s = .ok (s.stack[p]'(by omega), s.setStack s.stack ⟨p, by omega⟩) := by
  unfold pop
  split
  · next e => rw [e] at h; exact absurd h (by simp)
  · next q hq e =>
    have : q = p := by rw [e] at h; simpa using h
    subst this
    rfl

theorem pop_empty (s : State) (h : s.sp.val = 0) : pop s = .error .stackUnderflow := by
  unfold pop
  split
  · rfl
  · next e => rw [e] at h; exact absurd h (by simp)

/-! ### Ports -/

theorem answer_lined_up {α : Type} (a : α) (as : List α) (n : Nat) (free : Nat → α) :
    (Port.mk (a :: as) n).answer free = a := rfl

theorem answer_free {α : Type} (n : Nat) (free : Nat → α) : (Port.mk [] n).answer free = free n := rfl

theorem advance_lined_up {α : Type} (a : α) (as : List α) (n : Nat) :
    (Port.mk (a :: as) n).advance = ⟨as, n + 1⟩ := rfl

end Sys2Proof.Machine
end

