-- ==== Sys2Proof/Laws/PerInstr.lean ====
section
/-! SUPPORT. Statements made instruction by instruction. Family `Row`: an instruction's word is one that the mask and
the match of its own row of 30_encoding.md R55 select. -/

namespace Sys2Proof.Laws.Row

/-- Some row of the map carries the instruction's number and selects its word. -/
def Statement (i : Instr) : Prop :=
  ∃ r ∈ opcodeTable, r.number = i.rowNumber ∧ r.selects (encodeWord i) = true

theorem of_mask {i : Instr} (r : OpcodeRow) (hr : r ∈ opcodeTable) (hn : r.number = i.rowNumber)
    (hm : encodeWord i &&& r.mask = r.bits) : Statement i :=
  ⟨r, hr, hn, by rw [OpcodeRow.selects, hm, beq_self_eq_true]⟩

theorem cls : Statement .cls :=
  of_mask ⟨1, 0xFFFF, 0x00E0⟩ (by decide) rfl (rfl)

theorem ret : Statement .ret :=
  of_mask ⟨2, 0xFFFF, 0x00EE⟩ (by decide) rfl (rfl)

theorem sys (nnn : Addr12) : Statement (.sys nnn) :=
  of_mask ⟨3, 0xF000, 0x0000⟩ (by decide) rfl (formatNnn_mask 0x0 nnn)

theorem jp (nnn : Addr12) : Statement (.jp nnn) :=
  of_mask ⟨4, 0xF000, 0x1000⟩ (by decide) rfl (formatNnn_mask 0x1 nnn)

theorem call (nnn : Addr12) : Statement (.call nnn) :=
  of_mask ⟨5, 0xF000, 0x2000⟩ (by decide) rfl (formatNnn_mask 0x2 nnn)

theorem seImm (x : RegIdx) (kk : Byte) : Statement (.seImm x kk) :=
  of_mask ⟨6, 0xF000, 0x3000⟩ (by decide) rfl (formatXkk_mask_op 0x3 x kk)

theorem sneImm (x : RegIdx) (kk : Byte) : Statement (.sneImm x kk) :=
  of_mask ⟨7, 0xF000, 0x4000⟩ (by decide) rfl (formatXkk_mask_op 0x4 x kk)

theorem seReg (x y : RegIdx) : Statement (.seReg x y) :=
  of_mask ⟨8, 0xF00F, 0x5000⟩ (by decide) rfl (formatXyn_mask 0x5 x y 0x0)

theorem ldImm (x : RegIdx) (kk : Byte) : Statement (.ldImm x kk) :=
  of_mask ⟨9, 0xF000, 0x6000⟩ (by decide) rfl (formatXkk_mask_op 0x6 x kk)

theorem addImm (x : RegIdx) (kk : Byte) : Statement (.addImm x kk) :=
  of_mask ⟨10, 0xF000, 0x7000⟩ (by decide) rfl (formatXkk_mask_op 0x7 x kk)

theorem ldReg (x y : RegIdx) : Statement (.ldReg x y) :=
  of_mask ⟨11, 0xF00F, 0x8000⟩ (by decide) rfl (formatXyn_mask 0x8 x y 0x0)

theorem orReg (x y : RegIdx) : Statement (.orReg x y) :=
  of_mask ⟨12, 0xF00F, 0x8001⟩ (by decide) rfl (formatXyn_mask 0x8 x y 0x1)

theorem andReg (x y : RegIdx) : Statement (.andReg x y) :=
  of_mask ⟨13, 0xF00F, 0x8002⟩ (by decide) rfl (formatXyn_mask 0x8 x y 0x2)

theorem xorReg (x y : RegIdx) : Statement (.xorReg x y) :=
  of_mask ⟨14, 0xF00F, 0x8003⟩ (by decide) rfl (formatXyn_mask 0x8 x y 0x3)

theorem addf (x y : RegIdx) : Statement (.addf x y) :=
  of_mask ⟨15, 0xF00F, 0x8004⟩ (by decide) rfl (formatXyn_mask 0x8 x y 0x4)

theorem sub (x y : RegIdx) : Statement (.sub x y) :=
  of_mask ⟨16, 0xF00F, 0x8005⟩ (by decide) rfl (formatXyn_mask 0x8 x y 0x5)

theorem shr (x y : RegIdx) : Statement (.shr x y) :=
  of_mask ⟨17, 0xF00F, 0x8006⟩ (by decide) rfl (formatXyn_mask 0x8 x y 0x6)

theorem subn (x y : RegIdx) : Statement (.subn x y) :=
  of_mask ⟨18, 0xF00F, 0x8007⟩ (by decide) rfl (formatXyn_mask 0x8 x y 0x7)

theorem shl (x y : RegIdx) : Statement (.shl x y) :=
  of_mask ⟨19, 0xF00F, 0x800E⟩ (by decide) rfl (formatXyn_mask 0x8 x y 0xE)

theorem sneReg (x y : RegIdx) : Statement (.sneReg x y) :=
  of_mask ⟨20, 0xF00F, 0x9000⟩ (by decide) rfl (formatXyn_mask 0x9 x y 0x0)

theorem ldI (nnn : Addr12) : Statement (.ldI nnn) :=
  of_mask ⟨21, 0xF000, 0xA000⟩ (by decide) rfl (formatNnn_mask 0xA nnn)

theorem jpV0 (nnn : Addr12) : Statement (.jpV0 nnn) :=
  of_mask ⟨22, 0xF000, 0xB000⟩ (by decide) rfl (formatNnn_mask 0xB nnn)

theorem rnd (x : RegIdx) (kk : Byte) : Statement (.rnd x kk) :=
  of_mask ⟨23, 0xF000, 0xC000⟩ (by decide) rfl (formatXkk_mask_op 0xC x kk)

theorem drw (x y : RegIdx) (n : Nibble) : Statement (.drw x y n) :=
  of_mask ⟨24, 0xF000, 0xD000⟩ (by decide) rfl (formatXyn_mask_op 0xD x y n)

theorem skp (x : RegIdx) : Statement (.skp x) :=
  of_mask ⟨25, 0xF0FF, 0xE09E⟩ (by decide) rfl (formatXkk_mask 0xE x 0x9E)

theorem sknp (x : RegIdx) : Statement (.sknp x) :=
  of_mask ⟨26, 0xF0FF, 0xE0A1⟩ (by decide) rfl (formatXkk_mask 0xE x 0xA1)

theorem ldVxDt (x : RegIdx) : Statement (.ldVxDt x) :=
  of_mask ⟨27, 0xF0FF, 0xF007⟩ (by decide) rfl (formatXkk_mask 0xF x 0x07)

theorem ldVxK (x : RegIdx) : Statement (.ldVxK x) :=
  of_mask ⟨28, 0xF0FF, 0xF00A⟩ (by decide) rfl (formatXkk_mask 0xF x 0x0A)

theorem ldDtVx (x : RegIdx) : Statement (.ldDtVx x) :=
  of_mask ⟨29, 0xF0FF, 0xF015⟩ (by decide) rfl (formatXkk_mask 0xF x 0x15)

theorem ldStVx (x : RegIdx) : Statement (.ldStVx x) :=
  of_mask ⟨30, 0xF0FF, 0xF018⟩ (by decide) rfl (formatXkk_mask 0xF x 0x18)

theorem addI (x : RegIdx) : Statement (.addI x) :=
  of_mask ⟨31, 0xF0FF, 0xF01E⟩ (by decide) rfl (formatXkk_mask 0xF x 0x1E)

theorem ldF (x : RegIdx) : Statement (.ldF x) :=
  of_mask ⟨32, 0xF0FF, 0xF029⟩ (by decide) rfl (formatXkk_mask 0xF x 0x29)

theorem ldB (x : RegIdx) : Statement (.ldB x) :=
  of_mask ⟨33, 0xF0FF, 0xF033⟩ (by decide) rfl (formatXkk_mask 0xF x 0x33)

theorem stRegs (x : RegIdx) : Statement (.stRegs x) :=
  of_mask ⟨34, 0xF0FF, 0xF055⟩ (by decide) rfl (formatXkk_mask 0xF x 0x55)

theorem ldRegs (x : RegIdx) : Statement (.ldRegs x) :=
  of_mask ⟨35, 0xF0FF, 0xF065⟩ (by decide) rfl (formatXkk_mask 0xF x 0x65)

end Sys2Proof.Laws.Row
end

