-- ==== Sys2Proof/Laws/Step.lean ====
section
/-! SUPPORT. What a step can be, what follows an execute phase, and what the execute phases can answer. -/

namespace Sys2Proof.Machine

/-! ### The tick -/

theorem fetch_below_end (s : State) (h : s.pc.toNat ≤ 4094) :
    fetch s = .ok (s.mem.read s.pc.toNat, s.mem.read (s.pc.toNat + 1)) := by
  have h0 : s.pc.toNat < Config.memSize := by unfold Config.memSize; omega
  have h1 : s.pc.toNat + 1 < Config.memSize := by unfold Config.memSize; omega
  simp only [fetch, memRead_ok s h0, memRead_ok s h1]

theorem fetch_at_end (s : State) (h : s.pc.toNat = 4095) : fetch s = .error (.memoryOutOfRange 4096) := by
  have h0 : s.pc.toNat < Config.memSize := by unfold Config.memSize; omega
  rw [fetch, memRead_ok s h0, h]
  rfl

/-- A step about to run an instruction is its execute phase and what follows it. -/
theorem step_aboutToRun {s : State} {i : Instr} (h : s.AboutToRun i) : step s = runInstr i s := by
  obtain ⟨h1, h2, h3, h4⟩ := h
  have h5 : ¬ Config.memSize ≤ s.pc.toNat := by unfold Config.memSize; omega
  simp only [step, h1, h2, tickStep, if_neg h5, fetch_below_end s h3, h4]

/-- Everything a step that goes on can have been. -/
theorem step_inv {s t : State} (h : step s = .next t) :
    ((s.status = .haltPc ∨ s.status = .haltQuit) ∧ t = s) ∨
    (∃ x, s.status = .waitKey x ∧ runInstr (.ldVxK x) s = .next t) ∨
    (s.status = .run ∧ s.phase = .poll ∧ t = quitPoll s) ∨
    (s.status = .run ∧ s.phase = .frameEnd ∧ t = frameEnd s) ∨
    (s.status = .run ∧ s.phase = .tick ∧ 4096 ≤ s.pc.toNat ∧ t = s.setStatus .haltPc) ∨
    ∃ i, s.AboutToRun i ∧ runInstr i s = .next t := by
  unfold step at h
  split at h
  · next e => cases h; exact .inl ⟨.inl e, rfl⟩
  · next e => cases h; exact .inl ⟨.inr e, rfl⟩
  · cases h
  · next x e => exact .inr (.inl ⟨x, e, h⟩)
  · next e =>
    split at h
    · next p => cases h; exact .inr (.inr (.inl ⟨e, p, rfl⟩))
    · next p =>
      unfold tickStep at h
      split at h
      · next hm => cases h; exact .inr (.inr (.inr (.inr (.inl ⟨e, p, hm, rfl⟩))))
      · next hm =>
        rcases Nat.lt_or_ge 4094 s.pc.toNat with hp | hp
        · rw [fetch_at_end s (by unfold Config.memSize at hm; omega)] at h
          cases h
        · simp only [fetch_below_end s hp] at h
          split at h
          · next i hd => exact .inr (.inr (.inr (.inr (.inr ⟨i, ⟨e, p, hp, hd⟩, h⟩))))
          · cases h
    · next p => cases h; exact .inr (.inr (.inr (.inl ⟨e, p, rfl⟩)))

theorem runInstr_inv {i : Instr} {s t : State} (h : runInstr i s = .next t) :
    ∃ u, exec i s = .next u ∧ t = finishTick i u := by
  unfold runInstr at h
  split at h
  · next u e => cases h; exact ⟨u, e, rfl⟩
  · cases h
  · cases h

/-- What follows an execute phase changes PC, TICK and the frame position alone. -/
theorem finishTick_frame (i : Instr) (u : State) :
    finishTick i u =
      { u with pc := (finishTick i u).pc, tick := (finishTick i u).tick, phase := (finishTick i u).phase } := by
  unfold finishTick
  split
  · rfl
  all_goals (unfold advance endTick; split <;> rfl)

/-- The end of a tick that does not wait. -/
theorem finishTick_done {i : Instr} {u : State} (h : ∀ x, u.status ≠ .waitKey x) :
    finishTick i u = u.tickDone (if transfers i then u.pc else u.pc + 2) := by
  unfold finishTick
  split
  · next x e => exact absurd e (h x)
  all_goals (unfold advance; split <;> rfl)

/-! ### Execute phases that can stop -/

theorem settle_inv {e : Except Fault State} {t : State} (h : settle e = .next t) : e = .ok t := by
  unfold settle at h
  split at h
  · cases h; rfl
  · cases h

/-- The rows a DRW reads. -/
def spriteRows (s : State) (n : Nibble) : List Byte := (List.range n.toNat).map fun k => s.mem.read (s.effAddr 0 + k)

/-- What the drawing of a DRW answers: the collision and the state before VF is written. -/
def drawn (x y : RegIdx) (n : Nibble) (s : State) : Bool × State :=
  drawRows (s.reg x).toNat (s.reg y).toNat (spriteRows s n) (false, s)

theorem exec_drw_ok (x y : RegIdx) {n : Nibble} {s : State} (h : n = 0 ∨ s.i.toNat + n.toNat ≤ 4096) :
    exec (.drw x y n) s = .next ((drawn x y n s).2.setReg 15 (flagByte (drawn x y n s).1)) := by
  have hf : n.toNat = 0 ∨ s.effAddr 0 + n.toNat ≤ Config.memSize :=
    h.imp (fun e => by rw [e]; rfl) fun e => by simpa [State.effAddr] using e
  simp only [exec, execDrw, readBlock_ok s hf]
  rfl

theorem exec_drw_error (x y : RegIdx) {n : Nibble} {s : State} (hn : n ≠ 0) (h : 4096 < s.i.toNat + n.toNat) :
    exec (.drw x y n) s = .fault (.memoryOutOfRange (max s.i.toNat 4096)) := by
  have hn' : n.toNat ≠ 0 := fun e => hn (BitVec.eq_of_toNat_eq (by simpa using e))
  simp only [exec, execDrw, readBlock_error s (a := s.effAddr 0) hn' (by simpa [State.effAddr] using h)]
  rfl

theorem exec_ldB_ok (x : RegIdx) {s : State} (h : s.i.toNat + 3 ≤ 4096) :
    exec (.ldB x) s = .next (s.setMem (Memory.load (s.effAddr 0) (bcdDigits (s.reg x)) s.mem)) :=
  congrArg settle (writeBlock_ok s (.inr h))

theorem exec_ldB_error (x : RegIdx) {s : State} (h : 4096 < s.i.toNat + 3) :
    exec (.ldB x) s = .fault (.memoryOutOfRange (max s.i.toNat 4096)) :=
  congrArg settle (writeBlock_error s (by simp [bcdDigits]) h)

theorem exec_stRegs_ok (x : RegIdx) {s : State} (h : s.i.toNat + (x.val + 1) ≤ 4096) :
    exec (.stRegs x) s = .next (s.setMem (Memory.load (s.effAddr 0) (s.regsUpTo x) s.mem)) :=
  congrArg settle (writeBlock_ok s (.inr (by simpa [State.effAddr] using h)))

theorem exec_stRegs_error (x : RegIdx) {s : State} (h : 4096 < s.i.toNat + (x.val + 1)) :
    exec (.stRegs x) s = .fault (.memoryOutOfRange (max s.i.toNat 4096)) :=
  congrArg settle (writeBlock_error s (List.ne_nil_of_length_pos (by simp)) (by simpa [State.effAddr] using h))

theorem exec_ldRegs_ok (x : RegIdx) {s : State} (h : s.i.toNat + (x.val + 1) ≤ 4096) :
    exec (.ldRegs x) s =
      .next (s.setRegsFrom 0 ((List.range (x.val + 1)).map fun k => s.mem.read (s.effAddr 0 + k))) := by
  simp only [exec, execLdRegs, readBlock_ok s (a := s.effAddr 0) (n := x.val + 1) (.inr (by simpa [State.effAddr] using h))]

theorem exec_ldRegs_error (x : RegIdx) {s : State} (h : 4096 < s.i.toNat + (x.val + 1)) :
    exec (.ldRegs x) s = .fault (.memoryOutOfRange (max s.i.toNat 4096)) := by
  simp only [exec, execLdRegs,
    readBlock_error s (a := s.effAddr 0) (Nat.succ_ne_zero x.val) (by simpa [State.effAddr] using h)]
  rfl

theorem exec_drw_inv {x y : RegIdx} {n : Nibble} {s t : State} (h : exec (.drw x y n) s = .next t) :
    (n = 0 ∨ s.i.toNat + n.toNat ≤ 4096) ∧ t = (drawn x y n s).2.setReg 15 (flagByte (drawn x y n s).1) := by
  by_cases hf : n = 0 ∨ s.i.toNat + n.toNat ≤ 4096
  · rw [exec_drw_ok x y hf] at h
    cases h
    exact ⟨hf, rfl⟩
  · rw [not_or] at hf
    rw [exec_drw_error x y hf.1 (by omega)] at h
    cases h

theorem exec_ldB_inv {x : RegIdx} {s t : State} (h : exec (.ldB x) s = .next t) :
    s.i.toNat + 3 ≤ 4096 ∧ t = s.setMem (Memory.load (s.effAddr 0) (bcdDigits (s.reg x)) s.mem) := by
  rcases Nat.lt_or_ge 4096 (s.i.toNat + 3) with hf | hf
  · rw [exec_ldB_error x hf] at h
    cases h
  · rw [exec_ldB_ok x hf] at h
    cases h
    exact ⟨hf, rfl⟩

theorem exec_stRegs_inv {x : RegIdx} {s t : State} (h : exec (.stRegs x) s = .next t) :
    s.i.toNat + (x.val + 1) ≤ 4096 ∧ t = s.setMem (Memory.load (s.effAddr 0) (s.regsUpTo x) s.mem) := by
  rcases Nat.lt_or_ge 4096 (s.i.toNat + (x.val + 1)) with hf | hf
  · rw [exec_stRegs_error x hf] at h
    cases h
  · rw [exec_stRegs_ok x hf] at h
    cases h
    exact ⟨hf, rfl⟩

theorem exec_ldRegs_inv {x : RegIdx} {s t : State} (h : exec (.ldRegs x) s = .next t) :
    s.i.toNat + (x.val + 1) ≤ 4096 ∧
      t = s.setRegsFrom 0 ((List.range (x.val + 1)).map fun k => s.mem.read (s.effAddr 0 + k)) := by
  rcases Nat.lt_or_ge 4096 (s.i.toNat + (x.val + 1)) with hf | hf
  · rw [exec_ldRegs_error x hf] at h
    cases h
  · rw [exec_ldRegs_ok x hf] at h
    cases h
    exact ⟨hf, rfl⟩

theorem exec_call_inv {nnn : Addr12} {s t : State} (h : exec (.call nnn) s = .next t) :
    ∃ hp : s.sp.val < 16,
      t = (s.setStack (s.stack.set s.sp.val s.pc hp) ⟨s.sp.val + 1, Nat.succ_lt_succ hp⟩).jumpTo nnn := by
  by_cases hp : s.sp.val < 16
  · simp only [exec, execCall, push_ok s s.pc hp] at h
    cases h
    exact ⟨hp, rfl⟩
  · have he : s.sp.val = 16 := by have := s.sp.isLt; omega
    simp only [exec, execCall, push_full s s.pc he] at h
    cases h

theorem exec_ret_inv {s t : State} (h : exec .ret s = .next t) :
    ∃ (p : Nat) (hp : s.sp.val = p + 1),
      t = (s.setStack s.stack ⟨p, by omega⟩).setPc (s.stack[p]'(by have := s.sp.isLt; omega)) := by
  by_cases hs : s.sp.val = 0
  · simp only [exec, execRet, pop_empty s hs] at h
    cases h
  · have hp : s.sp.val = (s.sp.val - 1) + 1 := by omega
    simp only [exec, execRet, pop_ok s _ hp] at h
    cases h
    exact ⟨_, hp, rfl⟩

theorem exec_ldVxK_inv {x : RegIdx} {s t : State} (h : exec (.ldVxK x) s = .next t) :
    (∃ k, s.keyArrived = some k ∧
      t = ((s.setKeyWait s.keyWait.advance).setReg x (BitVec.ofNat 8 k.val)).setStatus .run) ∨
    (s.keyArrived = none ∧ t = (s.setKeyWait s.keyWait.advance).setStatus (.waitKey x)) := by
  simp only [exec, execLdVxK, Host.Outcome.next.injEq] at h
  split at h
  · next k e => exact .inl ⟨k, e, h.symm⟩
  · next e => exact .inr ⟨e, h.symm⟩

/-- DRW changes VF, the display and the event stream alone. -/
theorem drawn_frame (x y : RegIdx) (n : Nibble) (s : State) : OnlyDisplay s (drawn x y n s).2 :=
  drawRows_frame _ _ _ _

/-! ### Every execute phase -/

/-- No execute phase touches TICK, the frame position, the parameters or the quit port. -/
theorem exec_frame {i : Instr} {s t : State} (h : exec i s = .next t) :
    t = { t with tick := s.tick, phase := s.phase, params := s.params, quit := s.quit } := by
  cases i
  case drw x y n =>
    obtain ⟨-, rfl⟩ := exec_drw_inv h
    rw [show (drawn x y n s).2 = _ from drawn_frame x y n s]
    rfl
  case ldRegs x =>
    obtain ⟨-, rfl⟩ := exec_ldRegs_inv h
    rw [setRegsFrom_frame]
  case ldB x => obtain ⟨-, rfl⟩ := exec_ldB_inv h; rfl
  case stRegs x => obtain ⟨-, rfl⟩ := exec_stRegs_inv h; rfl
  case ret => obtain ⟨_, _, rfl⟩ := exec_ret_inv h; rfl
  case call nnn => obtain ⟨_, rfl⟩ := exec_call_inv h; rfl
  case ldVxK x => rcases exec_ldVxK_inv h with ⟨_, -, rfl⟩ | ⟨-, rfl⟩ <;> rfl
  case addf x y => cases h; rw [writeResultAndFlag_frame]
  case sub x y => cases h; rw [writeResultAndFlag_frame]
  case subn x y => cases h; rw [writeResultAndFlag_frame]
  case shr x y => cases h; rw [writeResultAndFlag_frame]
  case shl x y => cases h; rw [writeResultAndFlag_frame]
  all_goals (cases h; rfl)

/-- STATUS after an execute phase: as before, but for an Fx0A. -/
theorem exec_status {i : Instr} {s t : State} (h : exec i s = .next t) :
    t.status = s.status ∨ ∃ x, i = .ldVxK x ∧ (t.status = .run ∨ t.status = .waitKey x) := by
  cases i
  case drw x y n =>
    obtain ⟨-, rfl⟩ := exec_drw_inv h
    rw [show (drawn x y n s).2 = _ from drawn_frame x y n s]
    exact .inl rfl
  case ldRegs x =>
    obtain ⟨-, rfl⟩ := exec_ldRegs_inv h
    rw [setRegsFrom_frame]
    exact .inl rfl
  case ldB x => obtain ⟨-, rfl⟩ := exec_ldB_inv h; exact .inl rfl
  case stRegs x => obtain ⟨-, rfl⟩ := exec_stRegs_inv h; exact .inl rfl
  case ret => obtain ⟨_, _, rfl⟩ := exec_ret_inv h; exact .inl rfl
  case call nnn => obtain ⟨_, rfl⟩ := exec_call_inv h; exact .inl rfl
  case ldVxK x =>
    rcases exec_ldVxK_inv h with ⟨_, -, rfl⟩ | ⟨-, rfl⟩
    · exact .inr ⟨x, rfl, .inl rfl⟩
    · exact .inr ⟨x, rfl, .inr rfl⟩
  case addf x y => cases h; rw [writeResultAndFlag_frame]; exact .inl rfl
  case sub x y => cases h; rw [writeResultAndFlag_frame]; exact .inl rfl
  case subn x y => cases h; rw [writeResultAndFlag_frame]; exact .inl rfl
  case shr x y => cases h; rw [writeResultAndFlag_frame]; exact .inl rfl
  case shl x y => cases h; rw [writeResultAndFlag_frame]; exact .inl rfl
  all_goals (cases h; exact .inl rfl)

/-! ### Placing a word -/

/-- A placed word that decodes is what the next step runs. -/
theorem withFetchWord_aboutToRun {s : State} (hm : s.MemoryCanonical) (nbits w : Nat) {i : Instr}
    (hd : decode (highByte (BitVec.ofNat 16 w)) (lowByte (BitVec.ofNat 16 w)) = .ok i) :
    (s.withFetchWord nbits w).AboutToRun i := by
  unfold State.withFetchWord placeWord
  generalize ht : (if s.pc.toNat + 1 < Config.memSize then s else s.setPc (BitVec.ofNat 16 Config.progBase)) = t
  have hp : t.pc.toNat + 1 < 4096 := by
    subst ht
    split
    · assumption
    · rw [State.setPc_pc]; decide
  have hc : Memory.wf t.mem = true := by
    subst ht
    split <;> exact hm
  have h0 : t.pc.toNat < Config.memSize := by unfold Config.memSize; omega
  refine ⟨rfl, rfl, by simpa using Nat.le_of_lt_succ (Nat.lt_of_succ_lt_succ hp), ?_⟩
  simp only [State.setPhase_mem, State.setStatus_mem, State.setMem_mem, State.setPhase_pc, State.setStatus_pc,
    State.setMem_pc]
  rw [Memory.read_write_other _ _ (by omega), Memory.read_write hc, if_pos rfl,
    Memory.read_write (Memory.wf_write hc _ h0), if_pos rfl]
  exact hd

end Sys2Proof.Machine
end

