-- ==== Sys2Proof/Tests/Slice0.lean ====
section
/-! SUPPORT. The model's own tests, with the expected results of spec/95_test_vectors.md or worked by hand from the rule
named, and a witness for the hypotheses of every statement of Certificates/Slice0/Obligations.lean. -/

namespace Sys2Proof.Tests

open Sys2Proof.Machine

/-! ### Small machines -/

/-- Reset, before its first tick, with the default parameters and 100 ticks a frame. -/
def base : State := { State.reset with params := ⟨100, .flagThenResult, false⟩, phase := .tick }

/-- `base` with these registers. -/
def withRegs (rs : List (RegIdx × Byte)) (s : State) : State := rs.foldl (fun t r => t.setReg r.1 r.2) s

/-- `base` with the other order of R84. -/
def flagLast (s : State) : State := { s with params := ⟨100, .resultThenFlag, false⟩ }

/-- The word `w` at PC and one step that goes on to a state that satisfies `p`. -/
def goes (w : Nat) (s : State) (p : State → Bool) : Bool :=
  match step (s.withFetchWord 16 w) with
  | .next t => p t
  | .fault _ => false
  | .refused _ => false

/-- The word `w` at PC and one step that is the fault `f`. -/
def faults (w : Nat) (s : State) (f : Fault) : Bool :=
  match step (s.withFetchWord 16 w) with
  | .next _ => false
  | .fault g => g == f
  | .refused _ => false

/-! ### WellFormed: the one check -/

theorem test_sys_0E0_is_ill_formed : (Instr.sys 0x0E0).wellFormed = false := by decide

theorem test_sys_0EE_is_ill_formed : (Instr.sys 0x0EE).wellFormed = false := by decide

theorem test_sys_neighbours_are_well_formed :
    (Instr.sys 0x0DF).wellFormed ∧ (Instr.sys 0x0E1).wellFormed ∧ (Instr.sys 0x0ED).wellFormed ∧
    (Instr.sys 0x0EF).wellFormed ∧ (Instr.sys 0x000).wellFormed ∧ (Instr.sys 0xFFF).wellFormed := by decide

/-! ### Decode: words of 95_test_vectors.md 2.1, and by the patterns of R55 -/

theorem test_decode_family_0 :
    [0x00E0, 0x00EE, 0x0000, 0x00E1, 0x00FF, 0x0FFF].map (decodeTableWord 16) =
      [some .cls, some .ret, some (.sys 0x000), some (.sys 0x0E1), some (.sys 0x0FF), some (.sys 0xFFF)] := by decide

theorem test_decode_addresses :
    [0x1ABC, 0x2ABC, 0xA123, 0xBFFF].map (decodeTableWord 16) =
      [some (.jp 0xABC), some (.call 0xABC), some (.ldI 0x123), some (.jpV0 0xFFF)] := by decide

theorem test_decode_immediates :
    [0x3A7F, 0x4A7F, 0x6A7F, 0x7A7F, 0xCA7F].map (decodeTableWord 16) =
      [some (.seImm 10 0x7F), some (.sneImm 10 0x7F), some (.ldImm 10 0x7F), some (.addImm 10 0x7F),
       some (.rnd 10 0x7F)] := by decide

theorem test_decode_families_5_and_9 :
    [0x5AB0, 0x9AB0, 0x5AB1, 0x9ABF].map (decodeTableWord 16) =
      [some (.seReg 10 11), some (.sneReg 10 11), none, none] := by decide

theorem test_decode_family_8_low :
    [0x8AB0, 0x8AB1, 0x8AB2, 0x8AB3, 0x8AB4].map (decodeTableWord 16) =
      [some (.ldReg 10 11), some (.orReg 10 11), some (.andReg 10 11), some (.xorReg 10 11),
       some (.addf 10 11)] := by decide

theorem test_decode_family_8_high :
    [0x8AB5, 0x8AB6, 0x8AB7, 0x8ABE, 0x8AB8, 0x8ABD, 0x8ABF].map (decodeTableWord 16) =
      [some (.sub 10 11), some (.shr 10 11), some (.subn 10 11), some (.shl 10 11), none, none, none] := by decide

theorem test_decode_families_D_and_E :
    [0xD125, 0xEA9E, 0xEAA1, 0xEA9F].map (decodeTableWord 16) =
      [some (.drw 1 2 5), some (.skp 10), some (.sknp 10), none] := by decide

theorem test_decode_family_F :
    [0xFA07, 0xFA0A, 0xFA15, 0xFA18, 0xFA1E, 0xFA29, 0xFA33, 0xFA55, 0xFA65].map (decodeTableWord 16) =
      [some (.ldVxDt 10), some (.ldVxK 10), some (.ldDtVx 10), some (.ldStVx 10), some (.addI 10), some (.ldF 10),
       some (.ldB 10), some (.stRegs 10), some (.ldRegs 10)] := by decide

theorem test_decode_family_F_rejects :
    [0xFA00, 0xFA1F, 0xFA75, 0xFAFF].map (decodeTableWord 16) = [none, none, none, none] := by decide

/-- The high byte comes first (R33). -/
theorem test_encode_byte_order : encode (.jp 0xABC) = (0x1A, 0xBC) := by decide

/-! ### Control flow: 95_test_vectors.md 2.2 -/

theorem test_jp : goes 0x1201 base (fun t => t.pc == 0x201) = true := by decide

theorem test_sys : goes 0x0300 base (fun t => t.pc == 0x300) = true := by decide

theorem test_call_last_slot :
    goes 0x2300 (base.setStack base.stack 15)
      (fun t => t.stack[15] == 0x200 && t.sp == 16 && t.pc == 0x300) = true := by decide

theorem test_call_overflow : faults 0x2300 (base.setStack base.stack 16) .stackOverflow = true := by decide

theorem test_ret :
    goes 0x00EE (base.setStack (base.stack.set 0 0x204) 1)
      (fun t => t.sp == 0 && t.pc == 0x206 && t.stack[0] == 0x204) = true := by decide

theorem test_ret_underflow : faults 0x00EE base .stackUnderflow = true := by decide

theorem test_jp_v0 : goes 0xBFFF (withRegs [(0, 0xFF)] base) (fun t => t.pc == 0x10FE) = true := by decide

theorem test_se_imm :
    goes 0x3005 (withRegs [(0, 5)] base) (fun t => t.pc == 0x204) = true ∧
    goes 0x3005 (withRegs [(0, 6)] base) (fun t => t.pc == 0x202) = true := by decide

theorem test_sne_imm :
    goes 0x4005 (withRegs [(0, 5)] base) (fun t => t.pc == 0x202) = true ∧
    goes 0x4005 (withRegs [(0, 6)] base) (fun t => t.pc == 0x204) = true := by decide

theorem test_se_reg :
    goes 0x5120 (withRegs [(1, 7), (2, 7)] base) (fun t => t.pc == 0x204) = true ∧
    goes 0x5120 (withRegs [(1, 7), (2, 8)] base) (fun t => t.pc == 0x202) = true := by decide

theorem test_sne_reg :
    goes 0x9120 (withRegs [(1, 7), (2, 8)] base) (fun t => t.pc == 0x204) = true ∧
    goes 0x9110 (withRegs [(1, 7)] base) (fun t => t.pc == 0x202) = true := by decide

theorem test_illegal_word : faults 0x5121 base (.decodeError 0x51 0x21) = true := by decide

/-! ### ALU: 95_test_vectors.md 2.3 -/

theorem test_ld_imm : goes 0x6A2C base (fun t => t.reg 10 == 0x2C && t.pc == 0x202 && t.tick == 1) = true := by decide

theorem test_add_imm :
    goes 0x7005 (withRegs [(0, 0xFE)] base) (fun t => t.reg 0 == 3 && t.reg 15 == 0) = true := by decide

theorem test_ld_reg : goes 0x8120 (withRegs [(2, 9)] base) (fun t => t.reg 1 == 9 && t.reg 2 == 9) = true := by decide

theorem test_or :
    goes 0x8121 (withRegs [(1, 0x0F), (2, 0xF0), (15, 1)] base) (fun t => t.reg 1 == 0xFF && t.reg 15 == 1) = true := by
  decide

theorem test_and : goes 0x8122 (withRegs [(1, 0x3C), (2, 0x0F)] base) (fun t => t.reg 1 == 0x0C) = true := by decide

theorem test_xor : goes 0x8123 (withRegs [(1, 0xFF), (2, 0x0F)] base) (fun t => t.reg 1 == 0xF0) = true := by decide

theorem test_addf :
    goes 0x8124 (withRegs [(1, 200), (2, 55)] base) (fun t => t.reg 1 == 255 && t.reg 15 == 0) = true ∧
    goes 0x8124 (withRegs [(1, 200), (2, 56)] base) (fun t => t.reg 1 == 0 && t.reg 15 == 1) = true ∧
    goes 0x81F4 (withRegs [(1, 5), (15, 1)] base) (fun t => t.reg 1 == 6 && t.reg 15 == 0) = true := by decide

theorem test_addf_vf :
    goes 0x8F14 (withRegs [(15, 200), (1, 200)] base) (fun t => t.reg 15 == 0x90) = true ∧
    goes 0x8F14 (flagLast (withRegs [(15, 200), (1, 200)] base)) (fun t => t.reg 15 == 1) = true := by decide

theorem test_sub :
    goes 0x8125 (withRegs [(1, 45), (2, 3)] base) (fun t => t.reg 1 == 42 && t.reg 15 == 1) = true ∧
    goes 0x8125 (withRegs [(1, 3), (2, 45)] base) (fun t => t.reg 1 == 214 && t.reg 15 == 0) = true := by decide

theorem test_sub_vf :
    goes 0x8F15 (withRegs [(15, 5), (1, 7)] base) (fun t => t.reg 15 == 0xFE) = true ∧
    goes 0x8F15 (flagLast (withRegs [(15, 5), (1, 7)] base)) (fun t => t.reg 15 == 0) = true := by decide

theorem test_shr :
    goes 0x8126 (withRegs [(1, 4), (2, 0xFF)] base)
      (fun t => t.reg 1 == 2 && t.reg 15 == 0 && t.reg 2 == 0xFF) = true ∧
    goes 0x8106 (withRegs [(1, 0xFF)] base) (fun t => t.reg 1 == 0x7F && t.reg 15 == 1) = true := by decide

theorem test_shr_vf :
    goes 0x8F06 (withRegs [(15, 5)] base) (fun t => t.reg 15 == 2) = true ∧
    goes 0x8F06 (flagLast (withRegs [(15, 5)] base)) (fun t => t.reg 15 == 1) = true := by decide

theorem test_subn :
    goes 0x8127 (withRegs [(1, 3), (2, 45)] base) (fun t => t.reg 1 == 42 && t.reg 15 == 1) = true ∧
    goes 0x8127 (withRegs [(1, 45), (2, 3)] base) (fun t => t.reg 1 == 214 && t.reg 15 == 0) = true := by decide

theorem test_shl :
    goes 0x810E (withRegs [(1, 0x81)] base) (fun t => t.reg 1 == 2 && t.reg 15 == 1) = true ∧
    goes 0x810E (withRegs [(1, 0x7F)] base) (fun t => t.reg 1 == 0xFE && t.reg 15 == 0) = true := by decide

theorem test_rnd :
    goes 0xC10F (base.setRnd ⟨[0xA7], 0⟩) (fun t => t.reg 1 == 0x07 && t.rnd == ⟨[], 1⟩) = true := by decide

/-! ### Index and memory: 95_test_vectors.md 2.4 -/

theorem test_ld_i : goes 0xAFFF base (fun t => t.i == 0x0FFF) = true := by decide

theorem test_add_i :
    goes 0xF11E (withRegs [(1, 2)] (base.setI 0xFFFF)) (fun t => t.i == 1 && t.reg 15 == 0) = true ∧
    goes 0xF11E (withRegs [(1, 1)] (base.setI 0x0FFF)) (fun t => t.i == 0x1000 && t.reg 15 == 0) = true := by decide

theorem test_ld_f :
    goes 0xF029 (withRegs [(0, 0x10)] base) (fun t => t.i == 80) = true ∧
    goes 0xF029 (withRegs [(0, 0xFF)] base) (fun t => t.i == 1275) = true := by decide

theorem test_ld_b :
    goes 0xF033 (withRegs [(0, 234)] (base.setI 4093))
      (fun t => t.mem.read 4093 == 2 && t.mem.read 4094 == 3 && t.mem.read 4095 == 4) = true := by decide

theorem test_ld_b_faults :
    faults 0xF033 (base.setI 4094) (.memoryOutOfRange 4096) = true ∧
    faults 0xF033 (base.setI 0xFFFF) (.memoryOutOfRange 65535) = true := by decide

theorem test_st_regs :
    goes 0xF255 (withRegs [(0, 1), (1, 2), (2, 3), (3, 4)] (base.setI 0x400))
      (fun t => t.mem.read 0x400 == 1 && t.mem.read 0x401 == 2 && t.mem.read 0x402 == 3 && t.mem.read 0x403 == 0 &&
        t.i == 0x400) = true := by decide

theorem test_st_regs_faults : faults 0xF155 (base.setI 4095) (.memoryOutOfRange 4096) = true := by decide

theorem test_ld_regs :
    goes 0xF465 base
      (fun t => t.reg 0 == 0xF0 && t.reg 1 == 0x90 && t.reg 2 == 0x90 && t.reg 3 == 0x90 && t.reg 4 == 0xF0) = true := by
  decide

theorem test_ld_regs_faults : faults 0xFF65 (base.setI 4081) (.memoryOutOfRange 4096) = true := by decide

/-! ### Display: 95_test_vectors.md 2.5 -/

theorem test_cls :
    goes 0x00E0 (base.setDisp (base.disp.setPixel 5 5 true))
      (fun t => !t.disp.pixel 5 5 && t.events == [.cleared]) = true := by decide

/-- Wraps at the right edge; V0 = 63, MEM[I] = 0xC0. -/
theorem test_drw_wraps :
    goes 0xD011 (withRegs [(0, 63), (1, 0)] ((base.setI 0x300).setMem (base.mem.write 0x300 0xC0)))
      (fun t => t.disp.pixel 63 0 && t.disp.pixel 0 0 && !t.disp.pixel 1 0 && t.reg 15 == 0 &&
        t.events == [.pixelToggled 63 0 true, .pixelToggled 0 0 true]) = true := by decide

/-- A set pixel under a set bit goes off, its neighbour under a clear bit stays. -/
theorem test_drw_collides :
    goes 0xD011
      ((base.setDisp ((base.disp.setPixel 0 0 true).setPixel 1 0 true)).setI 0x300 |>.setMem (base.mem.write 0x300 0x80))
      (fun t => !t.disp.pixel 0 0 && t.disp.pixel 1 0 && t.reg 15 == 1) = true := by decide

/-! ### Keypad, timers, frame: 95_test_vectors.md 2.6 -/

theorem test_skp :
    goes 0xE19E (base.setKeyHeld ⟨[true], 0⟩) (fun t => t.pc == 0x204) = true ∧
    goes 0xE19E (base.setKeyHeld ⟨[false], 0⟩) (fun t => t.pc == 0x202) = true := by decide

theorem test_sknp :
    goes 0xE1A1 (base.setKeyHeld ⟨[false], 0⟩) (fun t => t.pc == 0x204) = true ∧
    goes 0xE1A1 (base.setKeyHeld ⟨[true], 0⟩) (fun t => t.pc == 0x202) = true := by decide

theorem test_ld_vx_k :
    goes 0xF30A (base.setKeyWait ⟨[some 7], 0⟩)
      (fun t => t.reg 3 == 7 && t.pc == 0x202 && t.tick == 1 && t.status == .run) = true := by decide

theorem test_ld_vx_k_waits :
    goes 0xF30A (base.setKeyWait ⟨[none], 0⟩)
      (fun t => t.status == .waitKey 3 && t.pc == 0x200 && t.tick == 0) = true := by decide

theorem test_ld_vx_dt : goes 0xF107 (base.setDt 0x2A) (fun t => t.reg 1 == 0x2A && t.dt == 0x2A) = true := by decide

theorem test_ld_dt_vx : goes 0xF015 (withRegs [(0, 3)] base) (fun t => t.dt == 3 && t.st == 0) = true := by decide

theorem test_ld_st_vx : goes 0xF018 (withRegs [(0, 0x10)] base) (fun t => t.st == 0x10 && t.dt == 0) = true := by decide

theorem test_frame_end :
    step ({ base with phase := .frameEnd, dt := 3, st := 0 }) =
      .next { base with phase := .poll, dt := 2, st := 0, events := [.framePresented] } := by rfl

/-- P6 of 95_test_vectors.md: an empty program runs SYS 0, and the font's first bytes are no instruction. -/
theorem test_empty_program :
    decode (State.reset.mem.read 512) (State.reset.mem.read 513) = .ok (.sys 0) ∧
    decode (State.reset.mem.read 0) (State.reset.mem.read 1) = .error (.decodeError 0xF0 0x90) := by decide

/-! ### Witnesses: the machine about to run a word -/

/-- `s` with the word `w` at its PC, about to be fetched. -/
def running (w : Nat) (s : State) : State := s.withFetchWord 16 w

theorem witness_DecodeOfEncode : (Instr.sys 0x0E1).wellFormed = true ∧ (Instr.drw 15 15 15).wellFormed = true := by decide

theorem witness_EncodeOfDecode : decode 0xFF 0x65 = .ok (.ldRegs 15) := by decide

theorem witness_StepRunsDecodedInstruction_fault :
    (running 0x00EE base).AboutToRun .ret ∧ exec .ret (running 0x00EE base) = .fault .stackUnderflow :=
  ⟨⟨rfl, rfl, by decide, rfl⟩, rfl⟩

theorem witness_StepRunsDecodedInstruction_waits :
    (running 0xF30A (base.setKeyWait ⟨[none], 0⟩)).AboutToRun (.ldVxK 3) ∧
    ∃ t, exec (.ldVxK 3) (running 0xF30A (base.setKeyWait ⟨[none], 0⟩)) = .next t ∧ t.status = .waitKey 3 :=
  ⟨⟨rfl, rfl, by decide, rfl⟩, _, rfl, rfl⟩

theorem witness_StepRunsDecodedInstruction_transfers :
    (running 0x1ABC base).AboutToRun (.jp 0xABC) ∧ IsTransfer (.jp 0xABC) ∧
    ∃ t, exec (.jp 0xABC) (running 0x1ABC base) = .next t ∧ ∀ x, t.status ≠ .waitKey x :=
  ⟨⟨rfl, rfl, by decide, rfl⟩, .inr (.inl ⟨_, rfl⟩), _, rfl, by decide⟩

theorem witness_StepRunsDecodedInstruction_advances :
    (running 0x6A2C base).AboutToRun (.ldImm 10 0x2C) ∧ ¬ IsTransfer (.ldImm 10 0x2C) ∧
    ∃ t, exec (.ldImm 10 0x2C) (running 0x6A2C base) = .next t ∧ ∀ x, t.status ≠ .waitKey x :=
  ⟨⟨rfl, rfl, by decide, rfl⟩, by simp [IsTransfer], _, rfl, by decide⟩

theorem witness_SkipsNetFourBytes :
    (running 0x3005 base).AboutToRun (.seImm 0 5) ∧ (running 0x4005 base).AboutToRun (.sneImm 0 5) ∧
    (running 0x5120 base).AboutToRun (.seReg 1 2) ∧ (running 0x9120 base).AboutToRun (.sneReg 1 2) ∧
    (running 0xE19E base).AboutToRun (.skp 1) ∧ (running 0xE1A1 base).AboutToRun (.sknp 1) :=
  ⟨⟨rfl, rfl, by decide, rfl⟩, ⟨rfl, rfl, by decide, rfl⟩, ⟨rfl, rfl, by decide, rfl⟩, ⟨rfl, rfl, by decide, rfl⟩,
   ⟨rfl, rfl, by decide, rfl⟩, ⟨rfl, rfl, by decide, rfl⟩⟩

theorem witness_PcPastEndHalts :
    (base.setPc 4096).status = .run ∧ (base.setPc 4096).phase = .tick ∧ 4096 ≤ (base.setPc 4096).pc.toNat := by decide

theorem witness_FetchReadsTwoBytes :
    (base.setPc 4094).pc.toNat ≤ 4094 ∧
    ((base.setPc 4095).pc.toNat = 4095 ∧ (base.setPc 4095).status = .run ∧ (base.setPc 4095).phase = .tick) := by decide

theorem witness_IllegalWordStopsTheMachine :
    base.status = .run ∧ base.phase = .tick ∧ (base.setPc 0).pc.toNat ≤ 4094 ∧
    decode ((base.setPc 0).mem.read 0) ((base.setPc 0).mem.read 1) = .error (.decodeError 0xF0 0x90) := by decide

/-! ### Witnesses: the frame and the ends of a run -/

/-- Before a quit poll that the host answers. -/
def polling (b : Bool) : State := { base with phase := .poll, quit := ⟨[b], 0⟩ }

theorem witness_QuitIsPolledAtFrameStartOnly :
    ((polling true).status = .run ∧ (polling true).phase = .poll ∧ (polling true).isQuitRequested = true) ∧
    ((polling false).status = .run ∧ (polling false).phase = .poll ∧ (polling false).isQuitRequested = false) ∧
    ((∃ t, step (running 0x6A2C base) = .next t) ∧
      ¬ ((running 0x6A2C base).status = .run ∧ (running 0x6A2C base).phase = .poll)) :=
  ⟨by decide, by decide, ⟨_, rfl⟩, by decide⟩

/-- A frame of no ticks at its end. -/
def ending : State := { base with params := ⟨0, .flagThenResult, false⟩, phase := .frameEnd, dt := 1 }

theorem witness_FrameEndCountsTimers : ending.FrameLegal ∧ ending.status = .run ∧ ending.phase = .frameEnd := by
  refine ⟨⟨Nat.le_refl 0, ?_, fun _ => rfl, ?_⟩, rfl, rfl⟩
  · exact fun h => nomatch h
  · exact fun _ h => nomatch h

theorem witness_TimersChangeOnlyAtFrameEndOrByLoad :
    (∃ t, step (running 0xF015 (withRegs [(0, 3)] base)) = .next t ∧ t.dt = 3) ∧
    ¬ ((running 0xF015 (withRegs [(0, 3)] base)).status = .run ∧
      (running 0xF015 (withRegs [(0, 3)] base)).phase = .frameEnd) :=
  ⟨⟨_, rfl, rfl⟩, by decide⟩

theorem witness_EndedRunsAreAbsorbing :
    (∃ s : State, s.status = .haltPc) ∧ (∃ s : State, s.status = .haltQuit) ∧
    (∃ s : State, s.status = .fatal (.programTooLarge 3585)) ∧
    (¬ (base.setPc 4096).Ended ∧ ∃ t, step (base.setPc 4096) = .next t ∧ t.Ended) ∧
    (¬ (polling true).Ended ∧ ∃ t, step (polling true) = .next t ∧ t.Ended) := by
  refine ⟨⟨base.setStatus .haltPc, rfl⟩, ⟨base.setStatus .haltQuit, rfl⟩,
    ⟨base.setStatus (.fatal (.programTooLarge 3585)), rfl⟩, ⟨?_, _, rfl, .inl rfl⟩, ?_, _, rfl, .inr (.inl rfl)⟩
  all_goals rintro (h | h | ⟨_, h⟩) <;> exact nomatch h

/-- An Fx0A that waits, with what its next poll finds. -/
def waiting (k : Option Key) : State := { base with status := .waitKey 3, keyWait := ⟨[k], 0⟩ }

theorem witness_WaitingForAKeyFreezesTheMachine :
    ((waiting none).status = .waitKey 3 ∧ (waiting none).keyArrived = none) ∧
    ((waiting (some 15)).status = .waitKey 3 ∧ (waiting (some 15)).keyArrived = some 15) := by decide

/-- For MemoryStaysCanonical, PcStaysBounded, FrameStaysLegal and DisplayStaysTheReplayOfEvents: one state that meets the
four invariants, and steps. -/
theorem witness_invariants :
    base.MemoryCanonical ∧ base.PcBounded ∧ base.FrameLegal ∧ base.DisplayIsReplay ∧ ∃ t, step base = .next t :=
  ⟨rfl, ⟨by decide, by decide, fun _ h => nomatch h⟩,
   ⟨by decide, by decide, (fun h => nomatch h), fun _ h => nomatch h⟩, rfl, _, rfl⟩

/-- For LoadedMachineMeetsTheInvariants, ResetBuildsTheMemoryImage, ProgramThatDoesNotFitIsRefused and ResetRegisters:
programs of no byte, of 3584 and of 3585. -/
theorem witness_programs :
    ([] : List Byte).length ≤ 3584 ∧ (List.replicate 3584 (0 : Byte)).length ≤ 3584 ∧
    3584 < (List.replicate 3585 (0 : Byte)).length := by
  simp only [List.length_replicate, List.length_nil]
  omega

/-! ### Witnesses: memory -/

theorem witness_MemoryAccessIsBoundsChecked : base.MemoryCanonical ∧ (4095 < 4096) ∧ (4096 ≤ 4096) := by
  exact ⟨rfl, by decide, by decide⟩

/-- DRW, LD B, LD [I] and LD Vx, [I] one byte past the end, and the fetch at 4095. -/
theorem witness_OutOfRangeAccessFaults :
    exec (.drw 0 0 2) (base.setI 4095) = .fault (.memoryOutOfRange 4096) ∧
    exec (.ldB 0) (base.setI 4094) = .fault (.memoryOutOfRange 4096) ∧
    exec (.stRegs 1) (base.setI 4095) = .fault (.memoryOutOfRange 4096) ∧
    exec (.ldRegs 1) (base.setI 4095) = .fault (.memoryOutOfRange 4096) ∧
    (base.setPc 4095).pc.toNat ≤ 4095 := ⟨rfl, rfl, rfl, rfl, by decide⟩

/-- Also for StackFaults. -/
theorem witness_EachInstructionRaisesItsOwnFault :
    exec (.call 0x300) (base.setStack base.stack 16) = .fault .stackOverflow ∧
    exec .ret base = .fault .stackUnderflow ∧
    exec (.drw 0 0 1) (base.setI 0xFFFF) = .fault (.memoryOutOfRange 65535) := ⟨rfl, rfl, rfl⟩

theorem witness_BcdStoresThreeDigits :
    base.MemoryCanonical ∧ (base.setI 4093).i.toNat ≤ 4093 ∧ 4093 < (base.setI 4094).i.toNat :=
  ⟨rfl, by decide, by decide⟩

/-- For BlockStoreWritesRegisters and BlockLoadReadsRegisters. -/
theorem witness_blocks :
    base.MemoryCanonical ∧ (base.setI 4080).i.toNat + (15 : RegIdx).val ≤ 4095 ∧
    4095 < (base.setI 4081).i.toNat + (15 : RegIdx).val := ⟨rfl, by decide, by decide⟩

/-! ### Witnesses: stack, registers, display, keypad -/

theorem witness_CallPushesItsAddressAndJumps : (base.setStack base.stack 15).sp.val < 16 := by decide

theorem witness_RetPopsPcAndIsAdvanced :
    (base.setStack base.stack 16).sp.val = (15 : Fin 16).val + 1 ∧
    (base.setStack base.stack 1).sp.val = (0 : Fin 16).val + 1 := by decide

theorem witness_CallThenRetRestoresPc :
    ∃ t, exec (.call 0x300) (base.setStack base.stack 15) = .next t ∧ t.stack = t.stack ∧ t.sp = t.sp :=
  ⟨_, rfl, rfl, rfl⟩

/-- For AddWithCarry, SubtractWithNotBorrow and ShiftsCaptureTheBitShiftedOut. -/
theorem witness_flag_destinations :
    (1 : RegIdx) ≠ 15 ∧ base.params.vfWriteOrder = .flagThenResult ∧
    (flagLast base).params.vfWriteOrder = .resultThenFlag := by decide

theorem witness_ShiftsIgnoreY :
    (2 : RegIdx) ≠ 1 ∧ (2 : RegIdx) ≠ 15 ∧ (∃ t, exec (.shr 1 2) base = .next t) ∧ ∃ t, exec (.shl 1 2) base = .next t :=
  ⟨by decide, by decide, ⟨_, rfl⟩, _, rfl⟩

theorem witness_RandomIsAMaskedDraw : (base.setRnd ⟨[0xA7], 0⟩).rnd.script = 0xA7 :: [] := rfl

/-- No row, and a row at the last byte; the pixels of the first case lie under the sprite, the last does not. -/
theorem witness_DrawXorsTheSprite :
    (0 : Nibble) = 0 ∧ (base.setI 4095).i.toNat + (1 : Nibble).toNat ≤ 4096 ∧
    ((0 : Nat) < (1 : Nibble).toNat ∧ (7 : Nat) < 8 ∧
      (7 : Fin 64).val = ((base.reg 0).toNat + 7) % 64 ∧ (0 : Fin 32).val = ((base.reg 1).toNat + 0) % 32) ∧
    ∀ r c, r < (1 : Nibble).toNat → c < 8 →
      ¬ ((8 : Fin 64).val = ((base.reg 0).toNat + c) % 64 ∧ (0 : Fin 32).val = ((base.reg 1).toNat + r) % 32) := by
  refine ⟨rfl, by decide, by decide, fun r c _ hc h => ?_⟩
  have : (base.reg 0).toNat = 0 := rfl
  have : (8 : Fin 64).val = 8 := rfl
  omega

/-- Also for DrawEmitsTogglesInOrder. -/
theorem witness_DrawingTwiceRestoresTheDisplay : ∃ t, exec (.drw 0 1 5) base = .next t := ⟨_, rfl⟩

theorem witness_KeySkipsQueryTheKeypadOnce : (base.setKeyHeld ⟨[true], 0⟩).keyHeld.script = true :: [] := rfl

/-- For KeyReadCompletesWithAKey and KeyReadBlocksWithoutAKey. -/
theorem witness_key_reads :
    (base.setKeyWait ⟨[some 15], 0⟩).keyArrived = some 15 ∧ (base.setKeyWait ⟨[none], 0⟩).keyArrived = none := by decide

/-! ### Witnesses: the whole-machine rules -/

theorem witness_VfIsWrittenOnlyAsFlagOrDestination :
    (∃ t, exec (.addf 1 2) (withRegs [(1, 200), (2, 56)] base) = .next t ∧
      t.reg 15 ≠ (withRegs [(1, 200), (2, 56)] base).reg 15) ∧
    ∃ t, exec (.ldImm 15 7) base = .next t ∧ t.reg 15 ≠ base.reg 15 :=
  ⟨⟨_, rfl, by decide⟩, _, rfl, by decide⟩

theorem witness_IndexIsWrittenOnlyByItsInstructions : ∃ t, exec (.ldI 0xFFF) base = .next t ∧ t.i ≠ base.i :=
  ⟨_, rfl, by decide⟩

theorem witness_StackIsReachedOnlyByCallAndRet :
    ∃ t, exec (.call 0x300) base = .next t ∧ (t.stack ≠ base.stack ∨ t.sp ≠ base.sp) := ⟨_, rfl, by decide⟩

/-- The other clause: an instruction beside CALL and RET that goes on, and one that faults. -/
theorem witness_StackIsReachedOnlyByCallAndRet_read :
    (∀ nnn, Instr.ldI 0xFFF ≠ .call nnn) ∧ Instr.ldI 0xFFF ≠ .ret ∧ (∃ t, exec (.ldI 0xFFF) base = .next t) ∧
    (∀ nnn, Instr.ldB 0 ≠ .call nnn) ∧ Instr.ldB 0 ≠ .ret ∧
    exec (.ldB 0) (base.setI 4094) = .fault (.memoryOutOfRange 4096) :=
  ⟨(fun _ h => nomatch h), by decide, ⟨_, rfl⟩, (fun _ h => nomatch h), by decide, rfl⟩

theorem witness_DisplayIsWrittenOnlyByClearAndDraw :
    ∃ t, exec .cls base = .next t ∧ (t.disp ≠ base.disp ∨ t.events ≠ base.events) := ⟨_, rfl, .inr (by decide)⟩

/-- `base` with one pixel set. -/
def onePixel : State := base.setDisp (base.disp.setPixel 5 5 true)

/-- The clauses on steps: a CLS that changes the display, and a frame end that changes the events. -/
theorem witness_DisplayIsWrittenOnlyByClearAndDraw_steps :
    (∃ t, step (running 0x00E0 onePixel) = .next t ∧ t.disp ≠ (running 0x00E0 onePixel).disp ∧
      t.events ≠ (running 0x00E0 onePixel).events) ∧
    ∃ t, step ending = .next t ∧ t.events ≠ ending.events :=
  ⟨⟨_, rfl, by decide, by decide⟩, _, rfl, by decide⟩

theorem witness_MemoryIsWrittenOnlyByStores :
    (∃ t, exec (.ldB 0) (withRegs [(0, 255)] (base.setI 4093)) = .next t ∧ t.mem.read 4095 ≠ base.mem.read 4095) ∧
    ∃ t, exec (.stRegs 0) (withRegs [(0, 255)] (base.setI 4095)) = .next t ∧ t.mem.read 4095 ≠ base.mem.read 4095 :=
  ⟨⟨_, rfl, by decide⟩, _, rfl, by decide⟩

/-- A next state, and a fault. -/
theorem witness_SoundTimerAndEventsAreNeverRead :
    (∃ t, exec (.ldStVx 0) base = .next t) ∧ exec .ret base = .fault .stackUnderflow := ⟨⟨_, rfl⟩, rfl⟩

end Sys2Proof.Tests
end

section
/-! The shifts 8xy6 and 8xyE (30_encoding.md R59): their words decode for every `y`, and their execute phases neither read
nor write Vy. -/

namespace Sys2Proof.Proofs.Shifts

open Sys2Proof.Machine

/-! ### The words of family 8 -/

/-- The byte pair `8x yn` is the word that the format XY assembles. -/
theorem wordOf_family8 (x y : RegIdx) (n : Nibble) :
    wordOf (0x80 + BitVec.ofNat 8 x.val) (BitVec.ofNat 8 (16 * y.val) + n.setWidth 8) = formatXyn 0x8 x y n := by
  apply BitVec.eq_of_toNat_eq
  have h0x80 : (0x80 : Byte).toNat = 128 := rfl
  have hop : (0x8 : Nibble).toNat = 8 := rfl
  rw [toNat_wordOf, toNat_formatXyn, hop, BitVec.toNat_add, BitVec.toNat_add, h0x80]
  simp only [BitVec.toNat_ofNat, BitVec.toNat_setWidth]
  omega

/-- The decoder reads `n`, and nothing else, to choose the operation of a word of family 8 (R54). -/
theorem decodeWord_family8 (x y : RegIdx) (n : Nibble) :
    decodeWord (formatXyn 0x8 x y n) = decodeFamily8 x y n.toNat := by
  simp [decodeWord]

theorem decode_family8 {x y : RegIdx} {n : Nibble} {i : Instr} (h : decodeFamily8 x y n.toNat = some i) :
    decode (0x80 + BitVec.ofNat 8 x.val) (BitVec.ofNat 8 (16 * y.val) + n.setWidth 8) = .ok i := by
  simp only [decode, wordOf_family8, decodeWord_family8, h]

/-! ### Another value in a register that is neither the destination nor VF -/

theorem setReg_comm (s : State) {q r : RegIdx} (h : q ≠ r) (b c : Byte) :
    (s.setReg q b).setReg r c = (s.setReg r c).setReg q b := by
  unfold State.setReg
  rw [Vector.set_comm _ _ (Fin.val_ne_of_ne h)]

theorem writeResultAndFlag_setReg (s : State) {x y : RegIdx} (hx : y ≠ x) (hf : y ≠ 15) (b res flag : Byte) :
    (s.setReg y b).writeResultAndFlag x res flag = (s.writeResultAndFlag x res flag).setReg y b := by
  unfold State.writeResultAndFlag
  rw [State.setReg_params]
  cases s.params.vfWriteOrder with
  | flagThenResult => simp only [setReg_comm s hf, setReg_comm _ hx]
  | resultThenFlag => simp only [setReg_comm s hx, setReg_comm _ hf]

/-! ### The execute phases -/

theorem exec_shr (x y : RegIdx) (s : State) :
    exec (.shr x y) s = .next (s.writeResultAndFlag x (s.reg x >>> 1) (shiftOutLow (s.reg x))) := rfl

theorem exec_shl (x y : RegIdx) (s : State) :
    exec (.shl x y) s = .next (s.writeResultAndFlag x (s.reg x <<< 1) (shiftOutHigh (s.reg x))) := rfl

/-- An execute phase that computes the result and the flag from Vx alone neither reads nor writes Vy. -/
theorem exec_setReg_of_unary {i : Instr} {x y : RegIdx} (res flag : Byte → Byte)
    (hi : ∀ s, exec i s = .next (s.writeResultAndFlag x (res (s.reg x)) (flag (s.reg x)))) (hx : y ≠ x) (hf : y ≠ 15)
    (b : Byte) {s t : State} (h : exec i s = .next t) : exec i (s.setReg y b) = .next (t.setReg y b) := by
  rw [hi] at h ⊢
  cases h
  rw [State.reg_setReg_other s b hx.symm, writeResultAndFlag_setReg s hx hf]

/-- Settles O41: the sub-operation of family 8 is chosen by `n` alone, and the write of Vy commutes with the writes of Vx
and VF, the only registers that a shift touches. -/
theorem shiftsIgnoreY : Obligations.ShiftsIgnoreY := by
  intro x y y' s
  refine ⟨decode_family8 (n := 0x6) rfl, decode_family8 (n := 0xE) rfl, ?_, ?_, ?_⟩
  · rw [exec_shr, exec_shr]
  · rw [exec_shl, exec_shl]
  · exact fun b t hx hf =>
      ⟨exec_setReg_of_unary (· >>> 1) shiftOutLow (exec_shr x y) hx hf b,
       exec_setReg_of_unary (· <<< 1) shiftOutHigh (exec_shl x y) hx hf b⟩

end Sys2Proof.Proofs.Shifts
end

section
/-! The frame end (40_execution_cycle.md R79): one event, both timers counted down, and the next frame's quit poll. -/

namespace Sys2Proof.Proofs.FrameEnd

open Sys2Proof.Machine

/-- R163: the truncated subtraction of naturals is the clamp at zero. -/
theorem toNat_countDown (b : Byte) : (countDown b).toNat = b.toNat - 1 := by
  unfold countDown
  split
  · next hzero => rw [hzero]; rfl
  · next hpos =>
    have hone : (1 : Byte) ≤ b := by bv_omega
    exact BitVec.toNat_sub_of_le hone

theorem step_frameEnd {s : State} (hrun : s.status = .run) (hend : s.phase = .frameEnd) :
    step s = .next (frameEnd s) := by
  simp only [step, hrun, hend]

/-- Settles O12: the frame end is the step's answer in that phase, `countDown` clamps each timer, and `FrameLegal` puts
the frame end at the TPF-th tick. -/
theorem frameEndCountsTimers : Obligations.FrameEndCountsTimers := by
  rintro s ⟨-, -, htick, -⟩ hrun hend
  exact ⟨htick hend, frameEnd s, step_frameEnd hrun hend, rfl, toNat_countDown s.dt, toNat_countDown s.st, rfl⟩

end Sys2Proof.Proofs.FrameEnd
end

section
/-! Jumps and compare-and-skips (41_flow.md R91, R92, R95 to R98): each one is a single write of PC, followed by the
advance unless control was transferred. -/

namespace Sys2Proof.Proofs.Flow

open Sys2Proof.Machine

/-! ### What a write of PC and the advance leave -/

theorem changesOnlyPc_setPc (s : State) (w : Word) : ChangesOnlyPc s (s.setPc w) :=
  ⟨rfl, fun r _ => State.reg_setPc s w r, fun a => by rw [State.setPc_mem]⟩

theorem advance_of_transfers {i : Instr} (h : transfers i = true) (t : State) : advance i t = t :=
  if_pos h

theorem advance_pc_of_not_transfers {i : Instr} (h : transfers i = false) (t : State) :
    (advance i t).pc = t.pc + 2 := by
  rw [advance, h, if_neg Bool.false_ne_true, State.setPc_pc]

/-! ### Jumps -/

/-- The target's 12 bits are extended with zeros, so no address is lost (R91, R92). -/
theorem toNat_jumpTo_pc (s : State) (nnn : Addr12) : (s.jumpTo nnn).pc.toNat = nnn.toNat :=
  BitVec.toNat_setWidth_of_le (by decide)

theorem exec_jump_spec {i : Instr} {nnn : Addr12} {s : State} (hexec : exec i s = .next (s.jumpTo nnn))
    (htransfer : transfers i = true) :
    ∃ t, exec i s = .next t ∧ ChangesOnlyPc s t ∧ t.pc.toNat = nnn.toNat ∧ advance i t = t :=
  ⟨s.jumpTo nnn, hexec, changesOnlyPc_setPc s _, toNat_jumpTo_pc s nnn, advance_of_transfers htransfer _⟩

/-- Settles O28: SYS and JP are both `jumpTo`, and both report a transfer. -/
theorem jumpsLoadPc : Obligations.JumpsLoadPc :=
  fun _ _ => ⟨exec_jump_spec rfl rfl, exec_jump_spec rfl rfl⟩

/-! ### Compare-and-skips -/

/-- A skip whose test `c` decides the condition `p`. -/
theorem skipIf_pc {c : Bool} {p : Prop} [Decidable p] (h : c = true ↔ p) (s : State) :
    (s.skipIf c).pc = if p then s.pc + 2 else s.pc := by
  rw [State.skipIf, State.setPc_pc]
  exact if_congr h rfl rfl

theorem exec_skip_spec {i : Instr} {c : Bool} {p : Prop} [Decidable p] {s : State}
    (hexec : exec i s = .next (s.skipIf c)) (htransfer : transfers i = false) (h : c = true ↔ p) :
    ∃ t, exec i s = .next t ∧ ChangesOnlyPc s t ∧ t.pc = (if p then s.pc + 2 else s.pc) ∧
      (advance i t).pc = t.pc + 2 :=
  ⟨s.skipIf c, hexec, changesOnlyPc_setPc s _, skipIf_pc h s, advance_pc_of_not_transfers htransfer _⟩

/-- Settles O34: the four instructions are `skipIf` with the test that decides their condition, and none of them reports
a transfer. -/
theorem compareSkipsChangePcOnly : Obligations.CompareSkipsChangePcOnly :=
  fun _ _ _ _ =>
    ⟨exec_skip_spec rfl rfl beq_iff_eq, exec_skip_spec rfl rfl bne_iff_ne,
     exec_skip_spec rfl rfl beq_iff_eq, exec_skip_spec rfl rfl bne_iff_ne⟩

end Sys2Proof.Proofs.Flow
end

section
/-! Loads, the immediate addition and the bitwise operations (42_alu.md R100 to R105): each one is a single write of Vx,
and none of them writes VF as a flag. -/

namespace Sys2Proof.Proofs.RegisterWrites

open Sys2Proof.Machine

/-! ### What a single write of Vx leaves -/

theorem changesOnlyRegs_setReg (s : State) (x : RegIdx) (b : Byte) : ChangesOnlyRegs [x] s (s.setReg x b) :=
  ⟨rfl, fun _ hr => State.reg_setReg_other s b (List.ne_of_not_mem_cons hr), fun a => by rw [State.setReg_mem]⟩

theorem exec_write_spec {i : Instr} {x : RegIdx} {b : Byte} {s : State} (hexec : exec i s = .next (s.setReg x b)) :
    ∃ t, exec i s = .next t ∧ t.reg x = b ∧ ChangesOnlyRegs [x] s t :=
  ⟨s.setReg x b, hexec, State.reg_setReg_same s x b, changesOnlyRegs_setReg s x b⟩

/-- A write of a byte whose bits are `f`. -/
theorem exec_write_bits_spec {i : Instr} {x : RegIdx} {b : Byte} {s : State} {f : Nat → Bool}
    (hexec : exec i s = .next (s.setReg x b)) (hbits : ∀ k, b.getLsbD k = f k) :
    ∃ t, exec i s = .next t ∧ ChangesOnlyRegs [x] s t ∧ ∀ k, k < 8 → (t.reg x).getLsbD k = f k := by
  obtain ⟨t, ht, hx, hframe⟩ := exec_write_spec hexec
  exact ⟨t, ht, hframe, fun k _ => by rw [hx, hbits]⟩

/-! ### The instructions -/

/-- Settles O35: the byte written is the immediate, or what Vy held before. -/
theorem registerLoads : Obligations.RegisterLoads :=
  fun _ _ _ _ => ⟨exec_write_spec rfl, exec_write_spec rfl⟩

/-- Settles O36: the byte written is the sum of two 8-bit words, which wraps at 256. -/
theorem addImmediateWrapsWithoutFlag : Obligations.AddImmediateWrapsWithoutFlag := by
  intro x kk s
  have hexec : exec (.addImm x kk) s = .next (s.setReg x (s.reg x + kk)) := rfl
  obtain ⟨t, ht, hx, hframe⟩ := exec_write_spec hexec
  exact ⟨t, ht, by rw [hx, BitVec.toNat_add], hframe⟩

/-- Settles O37: each operation on bytes acts on every bit by itself. -/
theorem logicIsBitwiseWithoutFlag : Obligations.LogicIsBitwiseWithoutFlag :=
  fun _ _ _ =>
    ⟨exec_write_bits_spec rfl fun _ => BitVec.getLsbD_or,
     exec_write_bits_spec rfl fun _ => BitVec.getLsbD_and,
     exec_write_bits_spec rfl fun _ => BitVec.getLsbD_xor⟩

end Sys2Proof.Proofs.RegisterWrites
end

section
/-! The index register and the instructions that move bytes at it (43_index_memory.md R120 to R125): the first three are a
single write of I, LD B and LD [I] load a buffer into memory, and LD Vx, [I] is a sequence of register writes. -/

namespace Sys2Proof.Proofs.IndexMemory

open Sys2Proof.Machine

/-! ### Writes of I -/

theorem exec_setI_spec {i : Instr} {w : Word} {n : Nat} {s : State} (hexec : exec i s = .next (s.setI w))
    (hw : w.toNat = n) :
    ∃ t, exec i s = .next t ∧ t = { s with i := t.i } ∧ t.i.toNat = n ∧ SameRegsBut [] s t ∧ SameBytes s t :=
  ⟨s.setI w, hexec, rfl, hw, fun r _ => State.reg_setI s w r, fun a => by rw [State.setI_mem]⟩

/-- The product of a whole byte and 5 is below 65536, so it does not wrap (R122). -/
theorem toNat_fontAddr (b : Byte) : (fontAddr b).toNat = b.toNat * 5 := by
  have hb := b.isLt
  rw [fontAddr, BitVec.toNat_mul, BitVec.toNat_setWidth_of_le (show 8 ≤ 16 by decide)]
  exact Nat.mod_eq_of_lt (show b.toNat * 5 < 65536 by omega)

/-- Settles O43: the three are writes of I, of the address constant, of a 16-bit sum, and of the font address. -/
theorem indexArithmetic : Obligations.IndexArithmetic :=
  fun _ _ _ =>
    ⟨exec_setI_spec rfl (BitVec.toNat_setWidth_of_le (by decide)),
     exec_setI_spec rfl (by rw [BitVec.toNat_add, BitVec.toNat_setWidth_of_le (show 8 ≤ 16 by decide)]),
     exec_setI_spec rfl (toNat_fontAddr _)⟩

/-! ### Stores at I -/

/-- An instruction that loads a buffer of `n` bytes into memory at I, where they fit. -/
theorem exec_store_spec {i : Instr} {ws : List Byte} {n : Nat} {s : State} (hm : s.MemoryCanonical)
    (hlen : ws.length = n) (hfit : s.effAddr 0 + n ≤ 4096)
    (hexec : exec i s = .next (s.setMem (Memory.load (s.effAddr 0) ws s.mem))) :
    ∃ t, exec i s = .next t ∧ t = { s with mem := t.mem } ∧
      (∀ k, k < n → t.mem.read (s.effAddr k) = ws.getD k 0) ∧
      SameBytesOutside (s.effAddr 0) n s t ∧ SameRegsBut [] s t := by
  subst hlen
  refine ⟨_, hexec, rfl, fun k hk => ?_, fun b hb => ?_, fun r _ => State.reg_setMem s _ r⟩
  · have hoff : s.effAddr k = s.effAddr 0 + k := rfl
    rw [State.setMem_mem, Memory.read_load hm hfit, if_pos (by omega), hoff, Nat.add_sub_cancel_left]
  · rw [State.setMem_mem, Memory.read_load hm hfit, if_neg (by omega)]

theorem length_bcdDigits (b : Byte) : (bcdDigits b).length = 3 := rfl

/-- Each digit is below 256, so its byte holds it whole (R123). -/
theorem toNat_bcdDigits (b : Byte) :
    ((bcdDigits b).getD 0 0).toNat = b.toNat / 100 ∧ ((bcdDigits b).getD 1 0).toNat = b.toNat / 10 % 10 ∧
      ((bcdDigits b).getD 2 0).toNat = b.toNat % 10 := by
  have hb := b.isLt
  have hdigit {d : Nat} (hd : d < 256) : (BitVec.ofNat 8 d).toNat = d := Nat.mod_eq_of_lt hd
  exact ⟨hdigit (by omega), hdigit (by omega), hdigit (by omega)⟩

/-- Settles O44: LD B stores the buffer of the three digits. -/
theorem bcdStoresThreeDigits : Obligations.BcdStoresThreeDigits := by
  refine fun x s hm => ⟨fun hfit => ?_, fun hout => exec_ldB_error x (by omega)⟩
  have hfit' : s.i.toNat + 3 ≤ 4096 := by omega
  obtain ⟨t, ht, hframe, hbytes, hothers, hregs⟩ :=
    exec_store_spec hm (length_bcdDigits _) hfit' (exec_ldB_ok x hfit')
  obtain ⟨hundreds, tens, ones⟩ := toNat_bcdDigits (s.reg x)
  refine ⟨t, ht, hframe, ?_, ?_, ?_, hothers, hregs⟩
  · rw [hbytes 0 (by decide), hundreds]
  · rw [hbytes 1 (by decide), tens]
  · rw [hbytes 2 (by decide), ones]

/-- Settles O45: LD [I], Vx stores the buffer of the registers V0 to Vx. -/
theorem blockStoreWritesRegisters : Obligations.BlockStoreWritesRegisters := by
  refine fun x s hm => ⟨fun hfit => ?_, fun hout => exec_stRegs_error x (by omega)⟩
  have hfit' : s.i.toNat + (x.val + 1) ≤ 4096 := by omega
  obtain ⟨t, ht, hframe, hbytes, hothers, hregs⟩ :=
    exec_store_spec hm (length_regsUpTo s x) hfit' (exec_stRegs_ok x hfit')
  exact ⟨t, ht, hframe,
    fun r hr => (hbytes r (Nat.lt_succ_of_le hr)).trans (getD_regsUpTo s x r hr), hothers, hregs⟩

/-! ### The load at I -/

/-- Settles O46: the bytes read at I to I + x are written to the registers from V0 on. -/
theorem blockLoadReadsRegisters : Obligations.BlockLoadReadsRegisters := by
  refine fun x s => ⟨fun hfit => ?_, fun hout => exec_ldRegs_error x (by omega)⟩
  have hfit' : s.i.toNat + (x.val + 1) ≤ 4096 := by omega
  refine ⟨_, exec_ldRegs_ok x hfit', setRegsFrom_frame s 0 _, fun r => ?_, fun a => by rw [setRegsFrom_frame]⟩
  rw [reg_setRegsFrom, List.length_map, List.length_range]
  by_cases hr : r ≤ x
  · have hk : r.val < x.val + 1 := Nat.lt_succ_of_le hr
    rw [if_pos (by omega), if_pos hr]
    simp [hk, State.effAddr]
  · have hk : x.val < r.val := Nat.lt_of_not_le hr
    rw [if_neg (by omega), if_neg hr]

end Sys2Proof.Proofs.IndexMemory
end

section
/-! CLS (44_display.md R130, R133): the execute phase is the display primitive `dispClear`, so its rules are those of the
instruction. -/

namespace Sys2Proof.Proofs.ClearScreen

open Sys2Proof.Machine

/-! ### What clearing the display leaves -/

theorem dispClear_frame (s : State) :
    dispClear s = { s with disp := (dispClear s).disp, events := s.events ++ [.cleared] } := rfl

@[simp] theorem pixel_dispClear (s : State) (px : Fin 64) (py : Fin 32) :
    (dispClear s).disp.pixel px py = false := by
  rw [dispClear, State.emit_disp, State.setDisp_disp, Display.pixel_blank]

@[simp] theorem reg_dispClear (s : State) (r : RegIdx) : (dispClear s).reg r = s.reg r := by
  rw [dispClear, State.reg_emit, State.reg_setDisp]

@[simp] theorem dispClear_mem (s : State) : (dispClear s).mem = s.mem := by
  rw [dispClear, State.emit_mem, State.setDisp_mem]

/-! ### The instruction -/

theorem exec_cls (s : State) : exec .cls s = .next (dispClear s) := rfl

/-- Settles O47: CLS completes in the cleared state, whichever pixels were set before. -/
theorem clearUnsetsEveryPixel : Obligations.ClearUnsetsEveryPixel :=
  fun s =>
    ⟨dispClear s, exec_cls s, dispClear_frame s, pixel_dispClear s, fun r _ => reg_dispClear s r,
      fun a => by rw [dispClear_mem]⟩

end Sys2Proof.Proofs.ClearScreen
end

section
/-! The timer accesses (45_keypad_timers.md R143 to R145): one is a single write of Vx, the other two are a single write
of a timer register. -/

namespace Sys2Proof.Proofs.TimerAccess

open Sys2Proof.Machine

/-! ### What a write of a timer register leaves -/

theorem sameRegsBut_nil_setDt (s : State) (b : Byte) : SameRegsBut [] s (s.setDt b) :=
  fun r _ => State.reg_setDt s b r

theorem sameRegsBut_nil_setSt (s : State) (b : Byte) : SameRegsBut [] s (s.setSt b) :=
  fun r _ => State.reg_setSt s b r

theorem sameBytes_setDt (s : State) (b : Byte) : SameBytes s (s.setDt b) :=
  fun a => by rw [State.setDt_mem]

theorem sameBytes_setSt (s : State) (b : Byte) : SameBytes s (s.setSt b) :=
  fun a => by rw [State.setSt_mem]

/-! ### The execute phases -/

theorem exec_ldVxDt (x : RegIdx) (s : State) : exec (.ldVxDt x) s = .next (s.setReg x s.dt) := rfl

theorem exec_ldDtVx (x : RegIdx) (s : State) : exec (.ldDtVx x) s = .next (s.setDt (s.reg x)) := rfl

theorem exec_ldStVx (x : RegIdx) (s : State) : exec (.ldStVx x) s = .next (s.setSt (s.reg x)) := rfl

/-- Settles O54: reading DT is a write of Vx alone, so DT is in its frame, and writing a timer leaves every other field,
every register and every byte. -/
theorem timerAccess : Obligations.TimerAccess :=
  fun x s =>
    ⟨RegisterWrites.exec_write_spec (exec_ldVxDt x s),
     ⟨s.setDt (s.reg x), exec_ldDtVx x s, State.setDt_dt s _, rfl, sameRegsBut_nil_setDt s _, sameBytes_setDt s _⟩,
     ⟨s.setSt (s.reg x), exec_ldStVx x s, State.setSt_st s _, rfl, sameRegsBut_nil_setSt s _, sameBytes_setSt s _⟩⟩

end Sys2Proof.Proofs.TimerAccess
end

section
/-! Who raises a fatal condition, and when (60_exceptions.md R152 to R154): each operation that can stop completes
wherever its fault's condition fails, so one lemma turns its two laws into an equivalence. -/

namespace Sys2Proof.Proofs.Faults

open Sys2Proof.Machine

/-- An execute phase that raises `g` under the condition `c`, and completes otherwise, raises nothing else. -/
theorem fault_iff {r : Result} {c : Prop} {f g : Fault} (hfault : c → r = .fault g) (hnext : ¬ c → ∃ t, r = .next t) :
    r = .fault f ↔ c ∧ f = g := by
  constructor
  · intro hr
    by_cases hc : c
    · rw [hfault hc] at hr
      cases hr
      exact ⟨hc, rfl⟩
    · obtain ⟨t, ht⟩ := hnext hc
      rw [ht] at hr
      cases hr
  · rintro ⟨hc, rfl⟩
    exact hfault hc

/-! ### Memory accesses -/

theorem exec_drw_fault_iff (x y : RegIdx) (n : Nibble) (s : State) (f : Fault) :
    exec (.drw x y n) s = .fault f ↔
      n ≠ 0 ∧ 4096 < s.i.toNat + n.toNat ∧ f = .memoryOutOfRange (max s.i.toNat 4096) := by
  rw [← and_assoc]
  refine fault_iff (fun hout => exec_drw_error x y hout.1 hout.2) fun hfit => ⟨_, exec_drw_ok x y ?_⟩
  by_cases hn : n = 0
  · exact .inl hn
  · exact .inr (Nat.le_of_not_lt fun hlt => hfit ⟨hn, hlt⟩)

theorem exec_ldB_fault_iff (x : RegIdx) (s : State) (f : Fault) :
    exec (.ldB x) s = .fault f ↔ 4096 < s.i.toNat + 3 ∧ f = .memoryOutOfRange (max s.i.toNat 4096) :=
  fault_iff (exec_ldB_error x) fun hfit => ⟨_, exec_ldB_ok x (Nat.le_of_not_lt hfit)⟩

theorem exec_stRegs_fault_iff (x : RegIdx) (s : State) (f : Fault) :
    exec (.stRegs x) s = .fault f ↔
      4096 < s.i.toNat + (x.val + 1) ∧ f = .memoryOutOfRange (max s.i.toNat 4096) :=
  fault_iff (exec_stRegs_error x) fun hfit => ⟨_, exec_stRegs_ok x (Nat.le_of_not_lt hfit)⟩

theorem exec_ldRegs_fault_iff (x : RegIdx) (s : State) (f : Fault) :
    exec (.ldRegs x) s = .fault f ↔
      4096 < s.i.toNat + (x.val + 1) ∧ f = .memoryOutOfRange (max s.i.toNat 4096) :=
  fault_iff (exec_ldRegs_error x) fun hfit => ⟨_, exec_ldRegs_ok x (Nat.le_of_not_lt hfit)⟩

/-- The first byte of a fetch at 4095 is in range, so the address reported is that of the second (R72). -/
theorem fetch_error_iff {s : State} (hpc : s.pc.toNat ≤ 4095) (f : Fault) :
    fetch s = .error f ↔ s.pc.toNat = 4095 ∧ f = .memoryOutOfRange 4096 := by
  rcases Nat.lt_or_eq_of_le hpc with hbelow | hend
  · have hne : s.pc.toNat ≠ 4095 := Nat.ne_of_lt hbelow
    simp [fetch_below_end s (Nat.le_of_lt_succ hbelow), hne]
  · simp [fetch_at_end s hend, hend, eq_comm]

/-! ### The stack -/

theorem exec_call_fault_iff (nnn : Addr12) (s : State) (f : Fault) :
    exec (.call nnn) s = .fault f ↔ s.sp.val = 16 ∧ f = .stackOverflow := by
  refine fault_iff (fun hfull => ?_) fun hfree => ?_
  · simp only [exec, execCall, push_full s s.pc hfull]
    rfl
  · have hslot : s.sp.val < 16 := by omega
    simp only [exec, execCall, push_ok s s.pc hslot]
    exact ⟨_, rfl⟩

theorem exec_ret_fault_iff (s : State) (f : Fault) :
    exec .ret s = .fault f ↔ s.sp.val = 0 ∧ f = .stackUnderflow := by
  refine fault_iff (fun hempty => ?_) fun hused => ?_
  · simp only [exec, execRet, pop_empty s hempty]
    rfl
  · obtain ⟨p, hp⟩ := Nat.exists_eq_succ_of_ne_zero hused
    simp only [exec, execRet, pop_ok s p hp]
    exact ⟨_, rfl⟩

/-! ### Every execute phase -/

/-- The execute phase of every other instruction is a `.next` as it stands. -/
theorem exec_fault_inv {i : Instr} {s : State} {f : Fault} (h : exec i s = .fault f) :
    (∃ nnn, i = .call nnn) ∨ i = .ret ∨
      (∃ x y n, i = .drw x y n) ∨ (∃ x, i = .ldB x) ∨ (∃ x, i = .stRegs x) ∨ ∃ x, i = .ldRegs x := by
  cases i
  case call nnn => exact .inl ⟨nnn, rfl⟩
  case ret => exact .inr (.inl rfl)
  case drw x y n => exact .inr (.inr (.inl ⟨x, y, n, rfl⟩))
  case ldB x => exact .inr (.inr (.inr (.inl ⟨x, rfl⟩)))
  case stRegs x => exact .inr (.inr (.inr (.inr (.inl ⟨x, rfl⟩))))
  case ldRegs x => exact .inr (.inr (.inr (.inr (.inr ⟨x, rfl⟩))))
  all_goals cases h

/-- Settles O26: each access has its equivalence, and of the six instructions that can stop, CALL and RET raise the faults
of the stack. -/
theorem outOfRangeAccessFaults : Obligations.OutOfRangeAccessFaults := by
  refine fun s x y n f =>
    ⟨exec_drw_fault_iff x y n s f, exec_ldB_fault_iff x s f, exec_stRegs_fault_iff x s f, exec_ldRegs_fault_iff x s f,
     fun hpc => fetch_error_iff hpc f, fun a w ha => ⟨memRead_error s ha, memWrite_error s w ha⟩, fun i a h => ?_⟩
  rcases exec_fault_inv h with ⟨nnn, rfl⟩ | rfl | haccess
  · cases ((exec_call_fault_iff nnn s _).1 h).2
  · cases ((exec_ret_fault_iff s _).1 h).2
  · exact haccess

end Sys2Proof.Proofs.Faults
end

section
/-! The reset with a program (70_reset_and_hazards.md R180, R181, R183): one that does not fit leaves FATAL and nothing
else, one that fits starts the machine on the font, the program, and zeros. -/

namespace Sys2Proof.Proofs.Reset

open Sys2Proof.Machine

/-! ### The two outcomes -/

/-- The program area 512 to 4095 has 3584 bytes. -/
theorem resetWith_too_large (p : Params) (font : Vector Byte 80) {program : List Byte} (s : State)
    (hlarge : 3584 < program.length) :
    resetWith p font program s = s.enterFatal (.programTooLarge program.length) :=
  if_pos (show 4096 < 512 + program.length by omega)

theorem resetWith_fits (p : Params) (font : Vector Byte 80) {program : List Byte} (s : State)
    (hfit : program.length ≤ 3584) :
    resetWith p font program s =
      { State.reset with
        mem := Memory.load 512 program (Memory.load 0 font.toList []),
        params := p, rnd := s.rnd, keyHeld := s.keyHeld, keyWait := s.keyWait, quit := s.quit } :=
  if_neg (show ¬ 4096 < 512 + program.length by omega)

/-- R82: a fatal condition is absorbing, so no instruction runs after it. -/
theorem step_enterFatal (s : State) (f : Fault) : step (s.enterFatal f) = .fault f := rfl

/-! ### The memory of a machine that starts -/

theorem unlisted_above_font {a : Nat} (ha : 80 ≤ a) : Memory.unlisted a = 0 :=
  List.getD_eq_default _ _ (show Config.font.length ≤ a from ha)

/-- R181: what neither the font nor the program covers is zero. -/
theorem read_resetWith_uncovered (p : Params) (font : Vector Byte 80) {program : List Byte} (s : State)
    (hfit : program.length ≤ 3584) {a : Nat} (hfont : 80 ≤ a) (hprog : a < 512 ∨ 512 + program.length ≤ a) :
    (resetWith p font program s).mem.read a = 0 := by
  have hlen : font.toList.length = 80 := Vector.length_toList
  have hfontFits : 0 + font.toList.length ≤ 4096 := by omega
  have hprogFits : 512 + program.length ≤ 4096 := by omega
  rw [resetWith_fits p font s hfit]
  calc Memory.read (Memory.load 512 program (Memory.load 0 font.toList [])) a
      = Memory.read (Memory.load 0 font.toList []) a := by
        rw [Memory.read_load (Memory.wf_load rfl hfontFits) hprogFits, if_neg (by omega)]
    _ = Memory.unlisted a := by
        rw [Memory.read_load rfl hfontFits, if_neg (by omega), Memory.read_nil]
    _ = 0 := unlisted_above_font hfont

/-- The two zero bytes at 512 after a reset with no program are SYS 0. -/
theorem decode_zeros : decode 0 0 = .ok (.sys 0) := rfl

/-- Settles O23: the length decides between the two outcomes of the reset, and an empty program covers no byte. -/
theorem programThatDoesNotFitIsRefused : Obligations.ProgramThatDoesNotFitIsRefused := by
  refine fun p font program s => ⟨fun hlarge => ?_, fun hfit => ?_, ?_⟩
  · rw [resetWith_too_large p font s hlarge]
    exact ⟨rfl, step_enterFatal s _⟩
  · rw [resetWith_fits p font s hfit]
    rfl
  · rintro rfl
    have hzero {a : Nat} (ha : 512 ≤ a) : (resetWith p font [] s).mem.read a = 0 :=
      read_resetWith_uncovered p font s (Nat.zero_le _) (by omega) (.inr ha)
    exact ⟨hzero (Nat.le_refl 512), hzero (Nat.le_succ 512), decode_zeros⟩

end Sys2Proof.Proofs.Reset
end

section
/-! The encoding (30_encoding.md R51 to R58): a word is determined by the fields its format has, so the decoder and the
encoder undo each other, and a row of the opcode map asks for the value of the fields its mask keeps. -/

namespace Sys2Proof.Proofs.Encoding

/-! ### The decoder and the encoder on words -/

theorem decode_ok_iff (b0 b1 : Byte) (i : Instr) : decode b0 b1 = .ok i ↔ decodeWord (wordOf b0 b1) = some i := by
  unfold decode
  cases decodeWord (wordOf b0 b1) <;> simp

/-- The decoder rejects two bytes with those bytes and no others (R54). -/
theorem decode_error_iff (b0 b1 : Byte) (e : DecodeReject) :
    decode b0 b1 = .error e ↔ decodeWord (wordOf b0 b1) = none ∧ e = .decodeError b0 b1 := by
  unfold decode
  cases decodeWord (wordOf b0 b1) <;> simp [eq_comm]

theorem formatNnn_ne (op : Nibble) {nnn a : Addr12} (h : nnn ≠ a) : formatNnn op nnn ≠ formatNnn op a := fun e =>
  h (by rw [← fieldNnn_formatNnn op nnn, e, fieldNnn_formatNnn])

/-- A SYS that some word stands for has neither the word of CLS nor that of RET (R54). -/
theorem encodeWord_sys_ne {nnn : Addr12} (h : (Instr.sys nnn).wellFormed = true) :
    encodeWord (.sys nnn) ≠ 0x00E0#16 ∧ encodeWord (.sys nnn) ≠ 0x00EE#16 := by
  simp only [Instr.wellFormed, Bool.and_eq_true, bne_iff_ne] at h
  exact ⟨formatNnn_ne 0 h.1, formatNnn_ne 0 h.2⟩

theorem decodeWord_encodeWord {i : Instr} (h : i.wellFormed = true) : decodeWord (encodeWord i) = some i := by
  cases i
  case cls => rfl
  case ret => rfl
  case sys nnn =>
    obtain ⟨hcls, hret⟩ := encodeWord_sys_ne h
    have hop : (fieldOp (encodeWord (.sys nnn))).toNat = 0 := by simp [encodeWord]
    have hnnn : fieldNnn (encodeWord (.sys nnn)) = nnn := fieldNnn_formatNnn 0 nnn
    simp [decodeWord, hop, hcls, hret, hnnn]
  all_goals simp [encodeWord, decodeWord, decodeFamily8, decodeFamilyE, decodeFamilyF]

/-- Settles O1: the bytes of a word assemble to it, and the fields of a format are the operands it was given. -/
theorem decodeOfEncode : Obligations.DecodeOfEncode := by
  intro i h
  rw [decode_ok_iff, encode, wordOf_bytes]
  exact decodeWord_encodeWord h

/-! ### The word of an instruction that was decoded -/

theorem formatNnn_of_op {w : Word} {op : Nat} (h : (fieldOp w).toNat = op) :
    formatNnn (BitVec.ofNat 4 op) (fieldNnn w) = w := by
  rw [← h, BitVec.ofNat_toNat, BitVec.setWidth_eq, formatNnn_fields]

theorem formatXkk_of_op {w : Word} {op : Nat} (h : (fieldOp w).toNat = op) :
    formatXkk (BitVec.ofNat 4 op) (fieldX w) (fieldKk w) = w := by
  rw [← h, BitVec.ofNat_toNat, BitVec.setWidth_eq, formatXkk_fields]

theorem formatXkk_of_op_kk {w : Word} {op kk : Nat} (h : (fieldOp w).toNat = op) (hkk : (fieldKk w).toNat = kk) :
    formatXkk (BitVec.ofNat 4 op) (fieldX w) (BitVec.ofNat 8 kk) = w := by
  rw [← hkk, BitVec.ofNat_toNat, BitVec.setWidth_eq, formatXkk_of_op h]

theorem formatXyn_of_op {w : Word} {op : Nat} (h : (fieldOp w).toNat = op) :
    formatXyn (BitVec.ofNat 4 op) (fieldX w) (fieldY w) (fieldN w) = w := by
  rw [← h, BitVec.ofNat_toNat, BitVec.setWidth_eq, formatXyn_fields]

theorem formatXyn_of_op_n {w : Word} {op n : Nat} (h : (fieldOp w).toNat = op) (hn : (fieldN w).toNat = n) :
    formatXyn (BitVec.ofNat 4 op) (fieldX w) (fieldY w) (BitVec.ofNat 4 n) = w := by
  rw [← hn, BitVec.ofNat_toNat, BitVec.setWidth_eq, formatXyn_of_op h]

theorem encodeWord_of_family0 {w : Word} {i : Instr} (hop : (fieldOp w).toNat = 0)
    (h : (if w = 0x00E0 then some Instr.cls else if w = 0x00EE then some .ret else some (.sys (fieldNnn w))) = some i) :
    i.wellFormed = true ∧ encodeWord i = w := by
  have hw : formatNnn 0 (fieldNnn w) = w := formatNnn_of_op hop
  split at h
  · next e => cases h; exact ⟨rfl, e.symm⟩
  · next hcls =>
    split at h
    · next e => cases h; exact ⟨rfl, e.symm⟩
    · next hret =>
      cases h
      refine ⟨?_, hw⟩
      have hcls' : fieldNnn w ≠ 0x0E0 := fun e => hcls (by rw [← hw, e]; rfl)
      have hret' : fieldNnn w ≠ 0x0EE := fun e => hret (by rw [← hw, e]; rfl)
      simp only [Instr.wellFormed, Bool.and_eq_true, bne_iff_ne]
      exact ⟨hcls', hret'⟩

theorem encodeWord_of_family8 {w : Word} {i : Instr} (hop : (fieldOp w).toNat = 8)
    (h : decodeFamily8 (fieldX w) (fieldY w) (fieldN w).toNat = some i) :
    i.wellFormed = true ∧ encodeWord i = w := by
  unfold decodeFamily8 at h
  split at h <;> cases h
  all_goals next hn => exact ⟨rfl, formatXyn_of_op_n hop hn⟩

theorem encodeWord_of_familyE {w : Word} {i : Instr} (hop : (fieldOp w).toNat = 14)
    (h : decodeFamilyE (fieldX w) (fieldKk w).toNat = some i) : i.wellFormed = true ∧ encodeWord i = w := by
  unfold decodeFamilyE at h
  split at h <;> cases h
  all_goals next hkk => exact ⟨rfl, formatXkk_of_op_kk hop hkk⟩

theorem encodeWord_of_familyF {w : Word} {i : Instr} (hop : (fieldOp w).toNat = 15)
    (h : decodeFamilyF (fieldX w) (fieldKk w).toNat = some i) : i.wellFormed = true ∧ encodeWord i = w := by
  unfold decodeFamilyF at h
  split at h <;> cases h
  all_goals next hkk => exact ⟨rfl, formatXkk_of_op_kk hop hkk⟩

/-- Families 5 and 9 ask for `n = 0` (R54, log 12). -/
theorem eq_of_if_n_zero {w : Word} {i j : Instr} (h : (if fieldN w = 0 then some j else none) = some i) :
    (fieldN w).toNat = 0 ∧ j = i := by
  split at h
  · next hn => cases h; exact ⟨by rw [hn]; rfl, rfl⟩
  · cases h

theorem encodeWord_of_decodeWord {w : Word} {i : Instr} (h : decodeWord w = some i) :
    i.wellFormed = true ∧ encodeWord i = w := by
  unfold decodeWord at h
  split at h
  case h_1 hop => exact encodeWord_of_family0 hop h
  case h_6 hop => obtain ⟨hn, rfl⟩ := eq_of_if_n_zero h; exact ⟨rfl, formatXyn_of_op_n hop hn⟩
  case h_9 hop => exact encodeWord_of_family8 hop h
  case h_10 hop => obtain ⟨hn, rfl⟩ := eq_of_if_n_zero h; exact ⟨rfl, formatXyn_of_op_n hop hn⟩
  case h_14 hop => cases h; exact ⟨rfl, formatXyn_of_op hop⟩
  case h_15 hop => exact encodeWord_of_familyE hop h
  case h_16 hop => exact encodeWord_of_familyF hop h
  case h_17 => cases h
  case h_2 hop | h_3 hop | h_11 hop | h_12 hop => cases h; exact ⟨rfl, formatNnn_of_op hop⟩
  case h_4 hop | h_5 hop | h_7 hop | h_8 hop | h_13 hop => cases h; exact ⟨rfl, formatXkk_of_op hop⟩

/-- Settles O2: the fields that the decoder keeps in the instruction and the literals it matched make up the word. -/
theorem encodeOfDecode : Obligations.EncodeOfDecode := by
  intro b0 b1 i h
  obtain ⟨hwf, hw⟩ := encodeWord_of_decodeWord ((decode_ok_iff b0 b1 i).1 h)
  exact ⟨hwf, by rw [encode, hw, highByte_wordOf, lowByte_wordOf]⟩

/-! ### The illegal words -/

theorem decodeFamily8_none_iff (x y : RegIdx) {n : Nat} (hn : n < 16) :
    decodeFamily8 x y n = none ↔ n ∈ [8, 9, 10, 11, 12, 13, 15] := by
  interval_cases n <;> simp [decodeFamily8]

theorem decodeFamilyE_none_iff (x : RegIdx) (kk : Nat) : decodeFamilyE x kk = none ↔ kk ∉ [0x9E, 0xA1] := by
  unfold decodeFamilyE
  split <;> simp_all

theorem decodeFamilyF_none_iff (x : RegIdx) (kk : Nat) :
    decodeFamilyF x kk = none ↔ kk ∉ [0x07, 0x0A, 0x15, 0x18, 0x1E, 0x29, 0x33, 0x55, 0x65] := by
  unfold decodeFamilyF
  split <;> simp_all

/-- R56, by the fields of the word. -/
theorem decodeWord_none_iff (w : Word) :
    decodeWord w = none ↔
      ((fieldOp w).toNat = 5 ∧ (fieldN w).toNat ≠ 0) ∨
      ((fieldOp w).toNat = 8 ∧ (fieldN w).toNat ∈ [8, 9, 10, 11, 12, 13, 15]) ∨
      ((fieldOp w).toNat = 9 ∧ (fieldN w).toNat ≠ 0) ∨
      ((fieldOp w).toNat = 14 ∧ (fieldKk w).toNat ∉ [0x9E, 0xA1]) ∨
      ((fieldOp w).toNat = 15 ∧ (fieldKk w).toNat ∉ [0x07, 0x0A, 0x15, 0x18, 0x1E, 0x29, 0x33, 0x55, 0x65]) := by
  have hn : fieldN w = 0#4 ↔ (fieldN w).toNat = 0 := BitVec.toNat_inj.symm
  unfold decodeWord
  split
  case h_9 hop => simp only [hop, decodeFamily8_none_iff _ _ (fieldN w).isLt]; simp
  case h_15 hop => simp only [hop, decodeFamilyE_none_iff]; simp
  case h_16 hop => simp only [hop, decodeFamilyF_none_iff]; simp
  case h_6 hop | h_10 hop => simp [hop, hn]
  case h_17 =>
    have hlt := (fieldOp w).isLt
    generalize (fieldOp w).toNat = op at *
    interval_cases op <;> contradiction
  case h_1 hop => simp only [hop]; split <;> (try split) <;> simp
  all_goals next hop => simp [hop]

/-- Settles O4: `op` is the high nibble of the first byte, `n` the low nibble of the second, `kk` the second. -/
theorem illegalWordsAreDecodeErrors : Obligations.IllegalWordsAreDecodeErrors := by
  intro b0 b1
  have h0 := b0.isLt
  have h1 := b1.isLt
  have hop : (fieldOp (wordOf b0 b1)).toNat = b0.toNat / 16 := by rw [toNat_fieldOp, toNat_wordOf]; omega
  have hn : (fieldN (wordOf b0 b1)).toNat = b1.toNat % 16 := by rw [toNat_fieldN, toNat_wordOf]; omega
  have hkk : (fieldKk (wordOf b0 b1)).toNat = b1.toNat := by rw [toNat_fieldKk, toNat_wordOf]; omega
  rw [decode_error_iff, and_iff_left rfl, decodeWord_none_iff, hop, hn, hkk]

/-! ### The opcode map -/

/-- The mask F000 keeps `op`. -/
theorem selects_op (k : Nat) (bits w : Word) (hb : bits.toNat % 4096 = 0) :
    (OpcodeRow.mk k 0xF000#16 bits).selects w = decide ((fieldOp w).toNat = bits.toNat / 4096) := by
  have hm : w &&& 0xF000#16 = formatNnn (fieldOp w) 0 :=
    (congrArg (· &&& 0xF000#16) (formatNnn_fields w).symm).trans (formatNnn_mask _ _)
  have hw : (formatNnn (fieldOp w) 0).toNat = (fieldOp w).toNat * 4096 := by simp [toNat_formatNnn]
  rw [Bool.eq_iff_iff]
  simp only [OpcodeRow.selects, hm, beq_iff_eq, decide_eq_true_iff, ← BitVec.toNat_inj, hw]
  omega

/-- The mask F00F keeps `op` and `n`. -/
theorem selects_op_n (k : Nat) (bits w : Word) (hb : bits.toNat / 16 % 256 = 0) :
    (OpcodeRow.mk k 0xF00F#16 bits).selects w =
      (decide ((fieldOp w).toNat = bits.toNat / 4096) && decide ((fieldN w).toNat = bits.toNat % 16)) := by
  have hm : w &&& 0xF00F#16 = formatXyn (fieldOp w) 0 0 (fieldN w) :=
    (congrArg (· &&& 0xF00F#16) (formatXyn_fields w).symm).trans (formatXyn_mask _ _ _ _)
  have hw : (formatXyn (fieldOp w) 0 0 (fieldN w)).toNat = (fieldOp w).toNat * 4096 + (fieldN w).toNat := by
    simp [toNat_formatXyn]
  have hn := (fieldN w).isLt
  rw [Bool.eq_iff_iff]
  simp only [OpcodeRow.selects, hm, beq_iff_eq, Bool.and_eq_true, decide_eq_true_iff,
    ← BitVec.toNat_inj, hw]
  omega

/-- The mask F0FF keeps `op` and `kk`. -/
theorem selects_op_kk (k : Nat) (bits w : Word) (hb : bits.toNat / 256 % 16 = 0) :
    (OpcodeRow.mk k 0xF0FF#16 bits).selects w =
      (decide ((fieldOp w).toNat = bits.toNat / 4096) && decide ((fieldKk w).toNat = bits.toNat % 256)) := by
  have hm : w &&& 0xF0FF#16 = formatXkk (fieldOp w) 0 (fieldKk w) :=
    (congrArg (· &&& 0xF0FF#16) (formatXkk_fields w).symm).trans (formatXkk_mask _ _ _)
  have hw : (formatXkk (fieldOp w) 0 (fieldKk w)).toNat = (fieldOp w).toNat * 4096 + (fieldKk w).toNat := by
    simp [toNat_formatXkk]
  have hkk := (fieldKk w).isLt
  rw [Bool.eq_iff_iff]
  simp only [OpcodeRow.selects, hm, beq_iff_eq, Bool.and_eq_true, decide_eq_true_iff,
    ← BitVec.toNat_inj, hw]
  omega

/-- The mask FFFF keeps the word; its `op` is stated beside, since that alone excludes most words. -/
theorem selects_word (k : Nat) (bits w : Word) :
    (OpcodeRow.mk k 0xFFFF#16 bits).selects w =
      (decide ((fieldOp w).toNat = bits.toNat / 4096) && decide (w = bits)) := by
  have hm : w &&& 0xFFFF#16 = w := BitVec.and_allOnes
  have hb := bits.isLt
  rw [Bool.eq_iff_iff]
  simp only [OpcodeRow.selects, hm, beq_iff_eq, Bool.and_eq_true, decide_eq_true_iff]
  refine ⟨fun e => ⟨?_, e⟩, And.right⟩
  rw [e, toNat_fieldOp]
  omega

theorem row_selects_encodeWord (i : Instr) : Laws.Row.Statement i :=
  match i with
  | .cls => Laws.Row.cls
  | .ret => Laws.Row.ret
  | .sys nnn => Laws.Row.sys nnn
  | .jp nnn => Laws.Row.jp nnn
  | .call nnn => Laws.Row.call nnn
  | .seImm x kk => Laws.Row.seImm x kk
  | .sneImm x kk => Laws.Row.sneImm x kk
  | .seReg x y => Laws.Row.seReg x y
  | .ldImm x kk => Laws.Row.ldImm x kk
  | .addImm x kk => Laws.Row.addImm x kk
  | .ldReg x y => Laws.Row.ldReg x y
  | .orReg x y => Laws.Row.orReg x y
  | .andReg x y => Laws.Row.andReg x y
  | .xorReg x y => Laws.Row.xorReg x y
  | .addf x y => Laws.Row.addf x y
  | .sub x y => Laws.Row.sub x y
  | .shr x y => Laws.Row.shr x y
  | .subn x y => Laws.Row.subn x y
  | .shl x y => Laws.Row.shl x y
  | .sneReg x y => Laws.Row.sneReg x y
  | .ldI nnn => Laws.Row.ldI nnn
  | .jpV0 nnn => Laws.Row.jpV0 nnn
  | .rnd x kk => Laws.Row.rnd x kk
  | .drw x y n => Laws.Row.drw x y n
  | .skp x => Laws.Row.skp x
  | .sknp x => Laws.Row.sknp x
  | .ldVxDt x => Laws.Row.ldVxDt x
  | .ldVxK x => Laws.Row.ldVxK x
  | .ldDtVx x => Laws.Row.ldDtVx x
  | .ldStVx x => Laws.Row.ldStVx x
  | .addI x => Laws.Row.addI x
  | .ldF x => Laws.Row.ldF x
  | .ldB x => Laws.Row.ldB x
  | .stRegs x => Laws.Row.stRegs x
  | .ldRegs x => Laws.Row.ldRegs x

/-- Two rows that select one word agree on the bits that both masks keep. -/
theorem bits_agree_of_selects {r r' : OpcodeRow} {w : Word} (h : r.selects w = true) (h' : r'.selects w = true) :
    r.bits &&& r'.mask = r'.bits &&& r.mask := by
  rw [OpcodeRow.selects, beq_iff_eq] at h h'
  rw [← h, ← h', BitVec.and_assoc, BitVec.and_assoc, BitVec.and_comm r.mask]

/-- Past SYS, which shares words with CLS and RET, two rows disagree on a bit that both masks keep. -/
theorem rows_disjoint : ∀ r ∈ opcodeTable, ∀ r' ∈ opcodeTable, 3 < r'.number →
    r.bits &&& r'.mask = r'.bits &&& r.mask → r.number = r'.number := by
  decide

theorem find_row_encodeWord_of_lt {i : Instr} (hi : 3 < i.rowNumber) :
    (opcodeTable.find? fun r => r.selects (encodeWord i)).map OpcodeRow.number = some i.rowNumber := by
  obtain ⟨r', hmem', hnum', hsel'⟩ := row_selects_encodeWord i
  cases hfind : opcodeTable.find? fun r => r.selects (encodeWord i) with
  | none => exact absurd hsel' (List.find?_eq_none.1 hfind r' hmem')
  | some r =>
    have hsel : r.selects (encodeWord i) = true := List.find?_some (p := fun r : OpcodeRow => r.selects _) hfind
    have hmem := List.mem_of_find?_eq_some hfind
    have hnum := rows_disjoint r hmem r' hmem' (by omega) (bits_agree_of_selects hsel hsel')
    rw [Option.map_some, hnum, hnum']

theorem find_row_encodeWord {i : Instr} (h : i.wellFormed = true) :
    (opcodeTable.find? fun r => r.selects (encodeWord i)).map OpcodeRow.number = some i.rowNumber := by
  cases i
  case cls => rfl
  case ret => rfl
  case sys nnn =>
    obtain ⟨hcls, hret⟩ := encodeWord_sys_ne h
    have hop : (fieldOp (encodeWord (.sys nnn))).toNat = 0 := by simp [encodeWord]
    simp [opcodeTable, opcodeRowsLow, selects_op, selects_word, hop, hcls, hret, Instr.rowNumber]
  all_goals exact find_row_encodeWord_of_lt (by simp [Instr.rowNumber])

theorem find_row_of_illegal {w : Word} (h : decodeWord w = none) : (opcodeTable.find? fun r => r.selects w) = none := by
  rw [decodeWord_none_iff] at h
  rcases h with ⟨hop, hn⟩ | ⟨hop, hn⟩ | ⟨hop, hn⟩ | ⟨hop, hkk⟩ | ⟨hop, hkk⟩
  all_goals
    simp [opcodeTable, opcodeRowsLow, opcodeRowsHigh, selects_op, selects_op_n, selects_op_kk, selects_word, hop]
  case inl | inr.inr.inl => exact hn
  case inr.inl =>
    simp only [List.mem_cons, List.not_mem_nil, or_false] at hn
    omega
  case inr.inr.inr.inl | inr.inr.inr.inr => simpa using hkk

/-- Settles O3: past SYS no two rows select one word, so the first row found is the instruction's own; and no row asks
for the fields of an illegal word. -/
theorem decodeFollowsOpcodeMap : Obligations.DecodeFollowsOpcodeMap := by
  intro b0 b1
  split
  · next i h =>
    obtain ⟨hwf, hw⟩ := encodeWord_of_decodeWord ((decode_ok_iff b0 b1 i).1 h)
    rw [← hw]
    exact find_row_encodeWord hwf
  · next e h =>
    obtain ⟨hnone, he⟩ := (decode_error_iff b0 b1 e).1 h
    exact ⟨find_row_of_illegal hnone, he⟩

/-- Settles O5: each of the ten is decided by its own fields. -/
theorem sampleWordsDecode : Obligations.SampleWordsDecode := by
  unfold Obligations.SampleWordsDecode
  decide

end Sys2Proof.Proofs.Encoding
end

section
/-! CALL and RET (41_flow.md R90, R93) and JP V0 (R94): a push and a pop of the stack, and writes of PC. -/

namespace Sys2Proof.Proofs.Stack

open Sys2Proof.Machine

/-! ### The execute phases that complete -/

theorem exec_call_ok (nnn : Addr12) {s : State} (hfree : s.sp.val < 16) :
    exec (.call nnn) s =
      .next ((s.setStack (s.stack.set s.sp.val s.pc hfree) ⟨s.sp.val + 1, Nat.succ_lt_succ hfree⟩).jumpTo nnn) := by
  simp only [exec, execCall, push_ok s s.pc hfree]

theorem exec_ret_ok {s : State} {p : Nat} (hused : s.sp.val = p + 1) :
    exec .ret s = .next ((s.setStack s.stack ⟨p, by omega⟩).setPc (s.stack[p]'(by omega))) := by
  simp only [exec, execRet, pop_ok s p hused]

theorem getElem_stack_set (s : State) (w : Word) (hfree : s.sp.val < 16) (k : Fin 16) :
    (s.stack.set s.sp.val w hfree)[k] = if k.val = s.sp.val then w else s.stack[k] := by
  have hset : (s.stack.set s.sp.val w hfree)[k] = if s.sp.val = k.val then w else s.stack[k] :=
    Vector.getElem_set hfree k.isLt
  exact hset.trans (if_congr eq_comm rfl rfl)

/-- Settles O29: the push writes the slot at SP and no other, and a jump writes PC alone. -/
theorem callPushesItsAddressAndJumps : Obligations.CallPushesItsAddressAndJumps :=
  fun nnn s hfree =>
    ⟨_, exec_call_ok nnn hfree, rfl, Flow.toNat_jumpTo_pc _ nnn, rfl, getElem_stack_set s s.pc hfree,
     Flow.advance_of_transfers rfl _, fun _ _ => rfl, fun _ => rfl⟩

/-- Settles O30: the pop takes the slot below SP as PC and leaves the slots as they are. -/
theorem retPopsPcAndIsAdvanced : Obligations.RetPopsPcAndIsAdvanced :=
  fun _ _ hused =>
    ⟨_, exec_ret_ok hused, rfl, rfl, rfl, Flow.advance_pc_of_not_transfers rfl _, fun _ _ => rfl, fun _ => rfl⟩

/-- Settles O31: each of the two completes wherever its fault's condition fails. -/
theorem stackFaults : Obligations.StackFaults :=
  fun nnn s f => ⟨Faults.exec_call_fault_iff nnn s f, Faults.exec_ret_fault_iff s f⟩

/-- Settles O32: RET reads the slot that CALL has written, and takes back the SP that CALL has added. -/
theorem callThenRetRestoresPc : Obligations.CallThenRetRestoresPc := by
  intro nnn s t u hcall hstack hsp
  obtain ⟨hfree, rfl⟩ := exec_call_inv hcall
  have hused : u.sp.val = s.sp.val + 1 := congrArg Fin.val hsp
  have hslots : u.stack = s.stack.set s.sp.val s.pc hfree := hstack
  refine ⟨_, exec_ret_ok hused, ?_, rfl⟩
  simp only [State.setPc_pc, hslots, Vector.getElem_set_self]

/-! ### JP V0 -/

/-- 4095 + 255 is below 65536, so the 16-bit sum is the sum of the naturals (D11, log 17). -/
theorem toNat_jumpV0_pc (nnn : Addr12) (b : Byte) :
    (nnn.setWidth 16 + b.setWidth 16).toNat = nnn.toNat + b.toNat := by
  have hnnn := nnn.isLt
  have hb := b.isLt
  rw [BitVec.toNat_add, BitVec.toNat_setWidth_of_le (show 12 ≤ 16 by decide),
    BitVec.toNat_setWidth_of_le (show 8 ≤ 16 by decide)]
  omega

/-- Settles O33: the target is one write of PC, and JP V0 reports a transfer. -/
theorem jumpV0AddsWithoutWrap : Obligations.JumpV0AddsWithoutWrap :=
  fun nnn s =>
    ⟨_, rfl, Flow.changesOnlyPc_setPc s _, toNat_jumpV0_pc nnn (s.reg 0), Flow.advance_of_transfers rfl _⟩

end Sys2Proof.Proofs.Stack
end

section
/-! The instructions that write VF as a flag (42_alu.md R106 to R110): each one is `writeResultAndFlag` of a result and
a flag computed from the old values. -/

namespace Sys2Proof.Proofs.FlagArithmetic

open Sys2Proof.Machine

/-! ### The flags as numbers -/

theorem toNat_flagByte (c : Prop) [Decidable c] : (flagByte (decide c)).toNat = if c then 1 else 0 := by
  by_cases h : c <;> simp [flagByte, h]

theorem toNat_shiftOutLow (a : Byte) : (shiftOutLow a).toNat = a.toNat % 2 := by
  rw [shiftOutLow, BitVec.getLsbD, Nat.testBit_zero, toNat_flagByte]
  split <;> omega

theorem toNat_shiftOutHigh (a : Byte) : (shiftOutHigh a).toNat = a.toNat / 128 := by
  have ha := a.isLt
  rw [shiftOutHigh, BitVec.getLsbD, Nat.testBit_eq_decide_div_mod_eq, toNat_flagByte]
  split <;> omega

/-! ### The result and the flag -/

theorem writeResultAndFlag_changesOnlyRegs (s : State) (x : RegIdx) (res flag : Byte) :
    ChangesOnlyRegs [x, 15] s (s.writeResultAndFlag x res flag) := by
  refine ⟨writeResultAndFlag_frame s x res flag, fun r hr => ?_, fun a => by rw [writeResultAndFlag_frame]⟩
  simp only [List.mem_cons, List.not_mem_nil, or_false, not_or] at hr
  by_cases hx : x = 15
  · rw [hx, reg_writeResultAndFlag_vf, if_neg hr.2]
  · rw [reg_writeResultAndFlag s hx, if_neg hr.1, if_neg hr.2]

/-- An instruction whose result is `res` and whose flag is `flag`, as functions of the old value of Vx. -/
theorem exec_flag_spec {i : Instr} {x : RegIdx} {a f : Byte} {s : State} (res flag : Byte → Nat)
    (hexec : exec i s = .next (s.writeResultAndFlag x a f)) (ha : a.toNat = res (s.reg x))
    (hf : f.toNat = flag (s.reg x)) :
    ∃ t, exec i s = .next t ∧ ChangesOnlyRegs [x, 15] s t ∧
      (x ≠ 15 → (t.reg x).toNat = res (s.reg x) ∧ (t.reg 15).toNat = flag (s.reg x)) ∧
      (x = 15 → s.params.vfWriteOrder = .flagThenResult → (t.reg 15).toNat = res (s.reg 15)) ∧
      (x = 15 → s.params.vfWriteOrder = .resultThenFlag → (t.reg 15).toNat = flag (s.reg 15)) := by
  refine ⟨_, hexec, writeResultAndFlag_changesOnlyRegs s x a f, fun hx => ?_, ?_, ?_⟩
  · rw [reg_writeResultAndFlag s hx, reg_writeResultAndFlag s hx, if_pos rfl, if_neg (Ne.symm hx), if_pos rfl]
    exact ⟨ha, hf⟩
  · rintro rfl horder
    rw [reg_writeResultAndFlag_vf, if_pos rfl, if_pos horder, ha]
  · rintro rfl horder
    rw [reg_writeResultAndFlag_vf, if_pos rfl, horder, if_neg (by decide), hf]

/-! ### The instructions -/

/-- Settles O38: the result is the sum as an 8-bit word, the flag whether the sum of the naturals exceeds 255. -/
theorem addWithCarry : Obligations.AddWithCarry :=
  fun x y s =>
    exec_flag_spec (x := x) (fun a => (a.toNat + (s.reg y).toNat) % 256)
      (fun a => if a.toNat + (s.reg y).toNat > 255 then 1 else 0) rfl (BitVec.toNat_ofNat _ _) (toNat_flagByte _)

theorem toNat_sub_byte (a b : Byte) : (a - b).toNat = (256 + a.toNat - b.toNat) % 256 := by
  have hb := b.isLt
  rw [BitVec.toNat_sub]
  omega

/-- Settles O39: SUBN is SUB with the operands exchanged. -/
theorem subtractWithNotBorrow : Obligations.SubtractWithNotBorrow :=
  fun x y s =>
    ⟨exec_flag_spec (x := x) (fun a => (256 + a.toNat - (s.reg y).toNat) % 256)
      (fun a => if a.toNat ≥ (s.reg y).toNat then 1 else 0) rfl (toNat_sub_byte _ _) (toNat_flagByte _),
     exec_flag_spec (x := x) (fun a => (256 + (s.reg y).toNat - a.toNat) % 256)
      (fun a => if (s.reg y).toNat ≥ a.toNat then 1 else 0) rfl (toNat_sub_byte _ _) (toNat_flagByte _)⟩

/-- Settles O40: halving and doubling are the shifts by one, the flag the bit that leaves the byte. -/
theorem shiftsCaptureTheBitShiftedOut : Obligations.ShiftsCaptureTheBitShiftedOut :=
  fun x y s =>
    ⟨exec_flag_spec (fun a => a.toNat / 2) (fun a => a.toNat % 2) (Shifts.exec_shr x y s)
      (by rw [BitVec.toNat_ushiftRight, Nat.shiftRight_one]) (toNat_shiftOutLow _),
     exec_flag_spec (fun a => a.toNat * 2 % 256) (fun a => a.toNat / 128) (Shifts.exec_shl x y s)
      (by rw [BitVec.toNat_shiftLeft, Nat.shiftLeft_eq, pow_one]) (toNat_shiftOutHigh _)⟩

end Sys2Proof.Proofs.FlagArithmetic
end

section
/-! The instructions that ask the host (42_alu.md R111, 45_keypad_timers.md R140 to R142): one answer of a port, which
is the one lined up where there is one. -/

namespace Sys2Proof.Proofs.Ports

open Sys2Proof.Machine

theorem answer_of_script_cons {α : Type} {p : Port α} {a : α} {rest : List α} (h : p.script = a :: rest)
    (free : Nat → α) : p.answer free = a := by
  rw [Port.answer, h, List.headD_cons]

/-- Settles O42: the byte written is the drawn byte masked with `kk`, bit by bit. -/
theorem randomIsAMaskedDraw : Obligations.RandomIsAMaskedDraw := by
  intro x kk s
  refine ⟨_, rfl, rfl, fun k _ => ?_, fun r rest h => answer_of_script_cons h _,
    fun r hr => State.reg_setReg_other s _ (List.ne_of_not_mem_cons hr), fun _ => rfl⟩
  rw [State.reg_setRnd, State.reg_setReg_same, BitVec.getLsbD_and]

/-- Settles O51: both are a skip on the answer of one query, SKNP on its negation. -/
theorem keySkipsQueryTheKeypadOnce : Obligations.KeySkipsQueryTheKeypadOnce :=
  fun _ s =>
    ⟨⟨_, rfl, rfl, Flow.skipIf_pc Iff.rfl s, fun _ _ => rfl, fun _ => rfl⟩,
     ⟨_, rfl, rfl, Flow.skipIf_pc (Bool.not_eq_true' _).to_iff s, fun _ _ => rfl, fun _ => rfl⟩,
     fun _ _ h => answer_of_script_cons h _⟩

/-! ### LD Vx, K -/

theorem exec_ldVxK_key {s : State} {k : Key} (x : RegIdx) (h : s.keyArrived = some k) :
    exec (.ldVxK x) s =
      .next (((s.setKeyWait s.keyWait.advance).setReg x (BitVec.ofNat 8 k.val)).setStatus .run) := by
  simp only [exec, execLdVxK, h]

theorem exec_ldVxK_none {s : State} (x : RegIdx) (h : s.keyArrived = none) :
    exec (.ldVxK x) s = .next ((s.setKeyWait s.keyWait.advance).setStatus (.waitKey x)) := by
  simp only [exec, execLdVxK, h]

/-- A key number is below 16, so a byte holds it whole. -/
theorem toNat_key (k : Key) : (BitVec.ofNat 8 k.val).toNat = k.val := by
  have hk := k.isLt
  rw [BitVec.toNat_ofNat]
  omega

/-- Settles O52: the poll's key goes to Vx and nothing waits. -/
theorem keyReadCompletesWithAKey : Obligations.KeyReadCompletesWithAKey := by
  intro x s k h
  refine ⟨_, exec_ldVxK_key x h, rfl, ?_, fun r hr => ?_, fun _ => rfl⟩
  · rw [State.reg_setStatus, State.reg_setReg_same, toNat_key]
  · rw [State.reg_setStatus, State.reg_setReg_other _ _ (List.ne_of_not_mem_cons hr), State.reg_setKeyWait]

/-- Settles O53: a poll with no key writes STATUS and the port alone. -/
theorem keyReadBlocksWithoutAKey : Obligations.KeyReadBlocksWithoutAKey :=
  fun x _ h => exec_ldVxK_none x h

end Sys2Proof.Proofs.Ports
end

section
/-! The bounds-checked byte access (20_memory.md R31, R38), and which instruction raises which fatal condition
(60_exceptions.md R150). -/

namespace Sys2Proof.Proofs.MemoryAccess

open Sys2Proof.Machine

/-- Settles O25: the write is one of the canonical list, read back at its address and at no other. -/
theorem memoryAccessIsBoundsChecked : Obligations.MemoryAccessIsBoundsChecked := by
  intro s a w hm
  refine ⟨fun ha => ⟨memRead_ok s ha, _, memWrite_ok s w ha, rfl, Memory.wf_write hm w ha, fun b => ?_⟩,
    fun ha => ⟨memRead_error s ha, memWrite_error s w ha⟩⟩
  rcases Nat.lt_or_ge b Config.memSize with hb | hb
  · rw [memRead_ok _ hb, memRead_ok _ hb, State.setMem_mem, Memory.read_write hm]
    split <;> rfl
  · have hne : b ≠ a := fun e => absurd ha (Nat.not_lt.2 (e ▸ hb))
    rw [memRead_error _ hb, memRead_error _ hb, if_neg hne]

/-- Settles O27: of the six instructions that can stop, CALL and RET raise the faults of the stack, and the address that
the others report is `max I 4096`. -/
theorem eachInstructionRaisesItsOwnFault : Obligations.EachInstructionRaisesItsOwnFault := by
  intro i s f h
  have hend {c : Prop} (hf : c ∧ f = .memoryOutOfRange (max s.i.toNat 4096)) :
      ∃ a, 4096 ≤ a ∧ f = .memoryOutOfRange a := ⟨_, Nat.le_max_right _ _, hf.2⟩
  rcases Faults.exec_fault_inv h with ⟨nnn, rfl⟩ | rfl | haccess
  · exact .inl ⟨⟨nnn, rfl⟩, ((Faults.exec_call_fault_iff nnn s f).1 h).2⟩
  · exact .inr (.inl ⟨rfl, ((Faults.exec_ret_fault_iff s f).1 h).2⟩)
  · refine .inr (.inr ⟨haccess, ?_⟩)
    rcases haccess with ⟨x, y, n, rfl⟩ | ⟨x, rfl⟩ | ⟨x, rfl⟩ | ⟨x, rfl⟩
    · exact hend ((Faults.exec_drw_fault_iff x y n s f).1 h).2
    · exact hend ((Faults.exec_ldB_fault_iff x s f).1 h)
    · exact hend ((Faults.exec_stRegs_fault_iff x s f).1 h)
    · exact hend ((Faults.exec_ldRegs_fault_iff x s f).1 h)

end Sys2Proof.Proofs.MemoryAccess
end

section
/-! A sprite (44_display.md R131, R132): the bit of the sprite on a pixel, and from it the pixels, the collision and the
events of a DRW. -/

namespace Sys2Proof.Proofs.Draw

open Sys2Proof.Machine

/-! ### The bit of a sprite on a pixel -/

theorem eq_column_iff (px : Fin 64) (a : Nat) : px = column a ↔ px.val = a % 64 := Fin.ext_iff

theorem eq_row_iff (py : Fin 32) (a : Nat) : py = row a ↔ py.val = a % 32 := Fin.ext_iff

/-- A sprite of at most 32 rows meets each pixel once: the bit there is the bit that lands there. -/
theorem spriteBit_at {x0 y r c : Nat} {rows : List Byte} (hl : rows.length ≤ 32) (hr : r < rows.length) (hc : c < 8) :
    spriteBit x0 y rows (column (x0 + c)) (row (y + r)) = (rows.getD r 0).getLsbD (7 - c) := by
  rw [Bool.eq_iff_iff, spriteBit_iff]
  constructor
  · rintro ⟨r', c', hr', hc', hcol, hrow, hbit⟩
    have hc_eq := column_injective (by omega) (by omega) hcol
    have hr_eq := row_injective (by omega) (by omega) hrow
    rw [hc_eq, hr_eq]
    exact hbit
  · exact fun hbit => ⟨r, c, hr, hc, rfl, rfl, hbit⟩

theorem length_spriteRows (s : State) (n : Nibble) : (spriteRows s n).length = n.toNat := by
  rw [spriteRows, List.length_map, List.length_range]

theorem length_spriteRows_le (s : State) (n : Nibble) : (spriteRows s n).length ≤ 32 := by
  have hn := n.isLt
  rw [length_spriteRows]
  omega

theorem getD_spriteRows (s : State) {n : Nibble} {r : Nat} (hr : r < n.toNat) :
    (spriteRows s n).getD r 0 = s.mem.read (s.effAddr r) := by
  simp [spriteRows, List.getD_eq_getElem?_getD, hr, State.effAddr]

/-- Whether DRW has a set bit of its sprite on a pixel. -/
def drawBit (x y : RegIdx) (n : Nibble) (s : State) (px : Fin 64) (py : Fin 32) : Bool :=
  spriteBit (s.reg x).toNat (s.reg y).toNat (spriteRows s n) px py

theorem drawBit_at (x y : RegIdx) {n : Nibble} (s : State) {r c : Nat} (hr : r < n.toNat) (hc : c < 8) :
    drawBit x y n s (column ((s.reg x).toNat + c)) (row ((s.reg y).toNat + r)) =
      (s.mem.read (s.effAddr r)).getLsbD (7 - c) := by
  rw [drawBit, spriteBit_at (length_spriteRows_le s n) (by rwa [length_spriteRows]) hc, getD_spriteRows s hr]

theorem drawBit_iff (x y : RegIdx) (n : Nibble) (s : State) (px : Fin 64) (py : Fin 32) :
    drawBit x y n s px py = true ↔
      ∃ r c, r < n.toNat ∧ c < 8 ∧ px.val = ((s.reg x).toNat + c) % 64 ∧ py.val = ((s.reg y).toNat + r) % 32 ∧
        (s.mem.read (s.effAddr r)).getLsbD (7 - c) = true := by
  rw [drawBit, spriteBit_iff, length_spriteRows]
  refine exists_congr fun r => exists_congr fun c => and_congr_right fun hr => ?_
  rw [getD_spriteRows s hr, eq_column_iff, eq_row_iff]

/-! ### The state after DRW -/

theorem drawn_eq (x y : RegIdx) (n : Nibble) (s : State) :
    (drawn x y n s).2 = { s with disp := (drawn x y n s).2.disp, events := (drawn x y n s).2.events } :=
  drawn_frame x y n s

theorem exec_drw_drawn (x y : RegIdx) {n : Nibble} {s : State} (hfit : n = 0 ∨ s.i.toNat + n.toNat ≤ 4096) :
    exec (.drw x y n) s =
      .next (State.setReg { s with disp := (drawn x y n s).2.disp, events := (drawn x y n s).2.events } 15
        (flagByte (drawn x y n s).1)) := by
  rw [exec_drw_ok x y hfit, ← drawn_eq]

theorem exec_drw_drawn_inv {x y : RegIdx} {n : Nibble} {s t : State} (h : exec (.drw x y n) s = .next t) :
    (n = 0 ∨ s.i.toNat + n.toNat ≤ 4096) ∧
      t = State.setReg { s with disp := (drawn x y n s).2.disp, events := (drawn x y n s).2.events } 15
        (flagByte (drawn x y n s).1) := by
  obtain ⟨hfit, rfl⟩ := exec_drw_inv h
  exact ⟨hfit, by rw [← drawn_eq]⟩

/-! ### Pixels and collision -/

theorem pixel_drawn (x y : RegIdx) (n : Nibble) (s : State) (px : Fin 64) (py : Fin 32) :
    (drawn x y n s).2.disp.pixel px py = (s.disp.pixel px py ^^ drawBit x y n s px py) :=
  pixel_drawRows _ _ _ _ (length_spriteRows_le s n) px py

theorem hit_drawn (x y : RegIdx) (n : Nibble) (s : State) :
    (drawn x y n s).1 = true ↔ ∃ px py, s.disp.pixel px py = true ∧ drawBit x y n s px py = true := by
  refine (hit_drawRows _ _ _ _ (length_spriteRows_le s n)).trans (or_iff_right Bool.false_ne_true)

/-- The collision by rows and columns: a set pixel of `d` under a set bit of the sprite. -/
theorem collision_iff (x y : RegIdx) (n : Nibble) (s : State) (d : Display) :
    (∃ px py, d.pixel px py = true ∧ drawBit x y n s px py = true) ↔
      ∃ (r c : Nat) (px : Fin 64) (py : Fin 32), r < n.toNat ∧ c < 8 ∧
        px.val = ((s.reg x).toNat + c) % 64 ∧ py.val = ((s.reg y).toNat + r) % 32 ∧
        d.pixel px py = true ∧ (s.mem.read (s.effAddr r)).getLsbD (7 - c) = true := by
  constructor
  · rintro ⟨px, py, hset, hbit⟩
    obtain ⟨r, c, hr, hc, hcol, hrow, hb⟩ := (drawBit_iff x y n s px py).1 hbit
    exact ⟨r, c, px, py, hr, hc, hcol, hrow, hset, hb⟩
  · rintro ⟨r, c, px, py, hr, hc, hcol, hrow, hset, hb⟩
    exact ⟨px, py, hset, (drawBit_iff x y n s px py).2 ⟨r, c, hr, hc, hcol, hrow, hb⟩⟩

theorem flagByte_eq_one_iff (b : Bool) : flagByte b = 1 ↔ b = true := by
  cases b <;> decide

theorem flagByte_eq_one_or_zero (b : Bool) : flagByte b = 1 ∨ flagByte b = 0 := by
  cases b <;> decide

/-- Settles O48: by the pixels and the collision of `drawn`. -/
theorem drawXorsTheSprite : Obligations.DrawXorsTheSprite := by
  intro x y n s hfit
  refine ⟨_, exec_drw_drawn x y hfit, rfl, fun r c px py hr hc hcol hrow => ?_, fun px py hout => ?_, ?_, ?_,
    fun r hr => State.reg_setReg_other _ _ (List.ne_of_not_mem_cons hr), fun _ => rfl⟩
  · rw [State.setReg_disp, pixel_drawn, (eq_column_iff _ _).2 hcol, (eq_row_iff _ _).2 hrow, drawBit_at x y s hr hc]
  · have hbit : drawBit x y n s px py = false := Bool.eq_false_iff.2 fun hbit => by
      obtain ⟨r, c, hr, hc, hcol, hrow, -⟩ := (drawBit_iff x y n s px py).1 hbit
      exact hout r c hr hc ⟨hcol, hrow⟩
    rw [State.setReg_disp, pixel_drawn, hbit, Bool.xor_false]
  · rw [State.reg_setReg_same]
    exact flagByte_eq_one_or_zero _
  · rw [State.reg_setReg_same, flagByte_eq_one_iff, hit_drawn, collision_iff]

/-- Settles O50: the second draw has the sprite of the first, and XOR with it twice is the identity. -/
theorem drawingTwiceRestoresTheDisplay : Obligations.DrawingTwiceRestoresTheDisplay := by
  intro x y n s t h
  obtain ⟨hfit, rfl⟩ := exec_drw_drawn_inv h
  refine ⟨_, exec_drw_drawn x y hfit, ?_, ?_⟩
  · refine Display.ext_pixel fun px py => ?_
    rw [State.setReg_disp, pixel_drawn]
    show ((drawn x y n s).2.disp.pixel px py ^^ drawBit x y n s px py) = _
    rw [pixel_drawn, Bool.xor_assoc, Bool.xor_self, Bool.xor_false]
  · rw [State.reg_setReg_same, flagByte_eq_one_iff, hit_drawn]
    exact collision_iff x y n s (drawn x y n s).2.disp

/-! ### Events -/

/-- The event of column `c` of a sprite row, with the final value that the display `d` has (R132, log 6). -/
def toggles (zero : Bool) (d : Display) (x0 y : Nat) (bits : Byte) (c : Nat) : List Event :=
  if bits.getLsbD (7 - c) || zero then
    [.pixelToggled (column (x0 + c)) (row y) (d.pixel (column (x0 + c)) (row y))]
  else []

theorem dispXor_params (x y : Nat) (b : Bool) (s : State) : (dispXor x y b s).2.params = s.params := by
  rw [dispXor_frame x y b s]

theorem drawColumns_params (x0 y : Nat) (bits : Byte) (cs : List Nat) (acc : Bool × State) :
    (drawColumns x0 y bits cs acc).2.params = acc.2.params := by
  rw [drawColumns_frame x0 y bits cs acc]

theorem events_dispXor (x0 y c : Nat) (bits : Byte) (s : State) (d : Display)
    (hd : d.pixel (column (x0 + c)) (row y) = (s.disp.pixel (column (x0 + c)) (row y) ^^ bits.getLsbD (7 - c))) :
    (dispXor (x0 + c) y (bits.getLsbD (7 - c)) s).2.events =
      s.events ++ toggles s.params.notifyZeroBits d x0 y bits c := by
  simp only [dispXor, toggles, hd]
  split
  · rfl
  · exact (List.append_nil _).symm

/-- The events of one row, where `d` is the display when the row is drawn. -/
theorem events_drawColumns (x0 y : Nat) (bits : Byte) (cs : List Nat) (acc : Bool × State) (hn : cs.Nodup)
    (hc : ∀ c ∈ cs, c < 64) (d : Display)
    (hd : ∀ c ∈ cs, d.pixel (column (x0 + c)) (row y) =
      (acc.2.disp.pixel (column (x0 + c)) (row y) ^^ bits.getLsbD (7 - c))) :
    (drawColumns x0 y bits cs acc).2.events =
      acc.2.events ++ cs.flatMap (toggles acc.2.params.notifyZeroBits d x0 y bits) := by
  induction cs generalizing acc with
  | nil => exact (List.append_nil _).symm
  | cons c cs ih =>
    have hrest : ∀ c' ∈ cs, d.pixel (column (x0 + c')) (row y) =
        ((dispXor (x0 + c) y (bits.getLsbD (7 - c)) acc.2).2.disp.pixel (column (x0 + c')) (row y) ^^
          bits.getLsbD (7 - c')) := by
      intro c' hc'
      have hne : column (x0 + c') ≠ column (x0 + c) := fun e =>
        (List.nodup_cons.1 hn).1 (column_injective (hc c' (.tail c hc')) (hc c (.head cs)) e ▸ hc')
      rw [hd c' (.tail c hc'), pixel_dispXor]
      simp [hne]
    rw [drawColumns_cons, ih _ hn.of_cons fun c' hc' => hc c' (.tail c hc')]
    · rw [dispXor_params, events_dispXor x0 y c bits acc.2 d (hd c (.head cs)), List.flatMap_cons, List.append_assoc]
    · exact hrest

/-- The events of a sprite, where `d` is the display when all of it is drawn. -/
theorem events_drawRows (x0 y : Nat) (rows : List Byte) (acc : Bool × State) (hl : rows.length ≤ 32) (d : Display)
    (hd : ∀ r c, r < rows.length → c < 8 → d.pixel (column (x0 + c)) (row (y + r)) =
      (acc.2.disp.pixel (column (x0 + c)) (row (y + r)) ^^ (rows.getD r 0).getLsbD (7 - c))) :
    (drawRows x0 y rows acc).2.events = acc.2.events ++ (List.range rows.length).flatMap fun r =>
      (List.range 8).flatMap (toggles acc.2.params.notifyZeroBits d x0 (y + r) (rows.getD r 0)) := by
  induction rows generalizing y acc with
  | nil => exact (List.append_nil _).symm
  | cons bits rows ih =>
    rw [List.length_cons] at hl
    have hfirst : ∀ c ∈ List.range 8, d.pixel (column (x0 + c)) (row y) =
        (acc.2.disp.pixel (column (x0 + c)) (row y) ^^ bits.getLsbD (7 - c)) := fun c hc =>
      hd 0 c (Nat.succ_pos _) (List.mem_range.1 hc)
    have hrest : ∀ r c, r < rows.length → c < 8 → d.pixel (column (x0 + c)) (row (y + 1 + r)) =
        ((drawColumns x0 y bits (List.range 8) acc).2.disp.pixel (column (x0 + c)) (row (y + 1 + r)) ^^
          (rows.getD r 0).getLsbD (7 - c)) := by
      intro r c hr hc
      have hbelow : rowBit x0 y bits (List.range 8) (column (x0 + c)) (row (y + 1 + r)) = false :=
        Bool.eq_false_iff.2 fun hbit => by
          have hrow : row (y + (1 + r)) = row (y + 0) := by rw [← Nat.add_assoc]; exact rowBit_row hbit
          have := row_injective (by omega) (by omega) hrow
          omega
      rw [pixel_drawColumns x0 y bits (List.range 8) acc columns_nodup columns_lt, hbelow, Bool.xor_false,
        Nat.add_assoc, Nat.add_comm 1,
        hd (r + 1) c (Nat.succ_lt_succ hr) hc, List.getD_cons_succ]
    have hrange : (List.range 8) = [0, 1, 2, 3, 4, 5, 6, 7] := rfl
    rw [drawRows, ← hrange, ih (y + 1) _ (by omega) hrest, drawColumns_params,
      events_drawColumns x0 y bits (List.range 8) acc columns_nodup columns_lt d hfirst, List.append_assoc,
      List.length_cons, List.range_succ_eq_map (n := rows.length), List.flatMap_cons, List.flatMap_map]
    simp only [Nat.add_assoc, Nat.add_comm 1, Nat.succ_eq_add_one, List.getD_cons_succ, List.getD_cons_zero,
      Nat.add_zero]

theorem events_drawn (x y : RegIdx) (n : Nibble) (s : State) :
    (drawn x y n s).2.events = s.events ++ (List.range n.toNat).flatMap fun r =>
      (List.range 8).flatMap (toggles s.params.notifyZeroBits (drawn x y n s).2.disp (s.reg x).toNat
        ((s.reg y).toNat + r) (s.mem.read (s.effAddr r))) := by
  have hd : ∀ r c, r < (spriteRows s n).length → c < 8 →
      (drawn x y n s).2.disp.pixel (column ((s.reg x).toNat + c)) (row ((s.reg y).toNat + r)) =
        (s.disp.pixel (column ((s.reg x).toNat + c)) (row ((s.reg y).toNat + r)) ^^
          ((spriteRows s n).getD r 0).getLsbD (7 - c)) := by
    intro r c hr hc
    rw [length_spriteRows] at hr
    rw [pixel_drawn, drawBit_at x y s hr hc, getD_spriteRows s hr]
  refine (events_drawRows _ _ _ _ (length_spriteRows_le s n) _ hd).trans ?_
  rw [length_spriteRows]
  congr 1
  refine List.flatMap_congr fun r hr => ?_
  rw [getD_spriteRows s (List.mem_range.1 hr)]

/-- Settles O49: the events of `drawn`, whose display is the one that the write of VF leaves. -/
theorem drawEmitsTogglesInOrder : Obligations.DrawEmitsTogglesInOrder := by
  intro x y n s t h
  obtain ⟨-, rfl⟩ := exec_drw_inv h
  exact events_drawn x y n s

end Sys2Proof.Proofs.Draw
end

section
/-! What an execute phase writes (10_state.md sections 2 to 10): one inversion lemma over the 35 instructions, and from
it which instruction may change which piece of state. -/

namespace Sys2Proof.Proofs.Frames

open Sys2Proof.Machine

/-! ### Every execute phase -/

/-- The instructions that write VF as a flag (R11). -/
def WritesFlag (i : Instr) : Prop :=
  (∃ x y, i = .addf x y) ∨ (∃ x y, i = .sub x y) ∨ (∃ x y, i = .shr x y) ∨ (∃ x y, i = .subn x y) ∨
    (∃ x y, i = .shl x y) ∨ ∃ x y n, i = .drw x y n

/-- The instructions that write a register as their ordinary destination; of those that LD Vx, [I] writes, `x` is the
highest. -/
def HasDestination (i : Instr) (x : RegIdx) : Prop :=
  (∃ kk, i = .ldImm x kk) ∨ (∃ kk, i = .addImm x kk) ∨ (∃ y, i = .ldReg x y) ∨ (∃ y, i = .orReg x y) ∨
    (∃ y, i = .andReg x y) ∨ (∃ y, i = .xorReg x y) ∨ (∃ kk, i = .rnd x kk) ∨ i = .ldVxDt x ∨ i = .ldVxK x ∨
    i = .ldRegs x

/-- What the execute phase of an instruction may have written on the way from `s` to `t`. -/
inductive Wrote (i : Instr) (s t : State) : Prop where
  | jump (hi : transfers i = true) (hpc : t.pc.toNat ≤ 0x10FE) (ht : t = { s with pc := t.pc })
  | skip (hpc : t.pc = s.pc ∨ t.pc = s.pc + 2) (ht : t = { s with pc := t.pc, keyHeld := t.keyHeld })
  | stack (hi : (∃ nnn, i = .call nnn) ∨ i = .ret) (ht : t = { s with pc := t.pc, stack := t.stack, sp := t.sp })
  | flag (hi : WritesFlag i) (ht : t = { s with v := t.v })
  | destination (x : RegIdx) (hi : HasDestination i x) (hvf : x ≠ 15 → t.reg 15 = s.reg 15)
      (ht : t = { s with v := t.v, rnd := t.rnd, status := t.status, keyWait := t.keyWait })
  | index (hi : (∃ nnn, i = .ldI nnn) ∨ (∃ x, i = .addI x) ∨ ∃ x, i = .ldF x) (ht : t = { s with i := t.i })
  | bytes (hi : (∃ x, i = .ldB x) ∨ ∃ x, i = .stRegs x) (ht : t = { s with mem := t.mem })
  | display (hi : i = .cls ∨ ∃ x y n, i = .drw x y n) (hvf : t.reg 15 = s.reg 15 ∨ WritesFlag i)
      (ht : t = { s with v := t.v, disp := t.disp, events := t.events })
  | delayTimer (x : RegIdx) (hi : i = .ldDtVx x) (ht : t = { s with dt := s.reg x })
  | soundTimer (x : RegIdx) (hi : i = .ldStVx x) (ht : t = { s with st := s.reg x })

theorem toNat_jumpTo_pc_le (s : State) (nnn : Addr12) : (s.jumpTo nnn).pc.toNat ≤ 0x10FE := by
  have hnnn := nnn.isLt
  rw [Flow.toNat_jumpTo_pc]
  omega

theorem toNat_jumpV0_pc_le (nnn : Addr12) (b : Byte) : (nnn.setWidth 16 + b.setWidth 16).toNat ≤ 0x10FE := by
  have hnnn := nnn.isLt
  have hb := b.isLt
  rw [Stack.toNat_jumpV0_pc]
  omega

theorem skipIf_pc_or (s : State) (c : Bool) : (s.skipIf c).pc = s.pc ∨ (s.skipIf c).pc = s.pc + 2 := by
  cases c
  · exact .inl rfl
  · exact .inr rfl

theorem reg_vf_setReg (s : State) {x : RegIdx} (b : Byte) (hx : x ≠ 15) : (s.setReg x b).reg 15 = s.reg 15 :=
  State.reg_setReg_other s b hx.symm

theorem exec_wrote {i : Instr} {s t : State} (h : exec i s = .next t) : Wrote i s t := by
  cases i
  case sys nnn | jp nnn => cases h; exact .jump rfl (toNat_jumpTo_pc_le s nnn) rfl
  case jpV0 nnn => cases h; exact .jump rfl (toNat_jumpV0_pc_le nnn (s.reg 0)) rfl
  case seImm | sneImm | seReg | sneReg | skp | sknp => cases h; exact .skip (skipIf_pc_or s _) rfl
  case call nnn => obtain ⟨_, rfl⟩ := exec_call_inv h; exact .stack (.inl ⟨nnn, rfl⟩) rfl
  case ret => obtain ⟨_, _, rfl⟩ := exec_ret_inv h; exact .stack (.inr rfl) rfl
  case addf | sub | shr | subn | shl =>
    cases h
    exact .flag (by simp [WritesFlag]) (writeResultAndFlag_frame s _ _ _)
  case ldImm x _ | addImm x _ | ldReg x _ | orReg x _ | andReg x _ | xorReg x _ | rnd x _ | ldVxDt x =>
    cases h
    exact .destination x (by simp [HasDestination]) (reg_vf_setReg s _) rfl
  case ldVxK x =>
    rcases exec_ldVxK_inv h with ⟨k, -, rfl⟩ | ⟨-, rfl⟩
    · exact .destination x (by simp [HasDestination]) (reg_vf_setReg _ _) rfl
    · exact .destination x (by simp [HasDestination]) (fun _ => rfl) rfl
  case ldRegs x =>
    obtain ⟨-, rfl⟩ := exec_ldRegs_inv h
    refine .destination x (by simp [HasDestination]) (fun hx => ?_) (by rw [setRegsFrom_frame])
    have hlt : x.val < 15 := Nat.lt_of_le_of_ne (Nat.le_of_lt_succ x.isLt) fun e => hx (Fin.ext e)
    have hout : ¬ (0 ≤ 15 ∧ 15 < 0 + (x.val + 1)) := by omega
    rw [reg_setRegsFrom, List.length_map, List.length_range]
    exact if_neg hout
  case ldI | addI | ldF => cases h; exact .index (by simp) rfl
  case ldB x => obtain ⟨-, rfl⟩ := exec_ldB_inv h; exact .bytes (.inl ⟨x, rfl⟩) rfl
  case stRegs x => obtain ⟨-, rfl⟩ := exec_stRegs_inv h; exact .bytes (.inr ⟨x, rfl⟩) rfl
  case cls => cases h; exact .display (.inl rfl) (.inl rfl) rfl
  case drw x y n =>
    obtain ⟨-, rfl⟩ := Draw.exec_drw_drawn_inv h
    exact .display (.inr ⟨x, y, n, rfl⟩) (.inr (by simp [WritesFlag])) rfl
  case ldDtVx x => cases h; exact .delayTimer x rfl rfl
  case ldStVx x => cases h; exact .soundTimer x rfl rfl

/-! ### Piece by piece -/

/-- Settles O55: of the parts that `Wrote` lists, three have the register file. -/
theorem vfIsWrittenOnlyAsFlagOrDestination : Obligations.VfIsWrittenOnlyAsFlagOrDestination := by
  intro i s t h hne
  cases exec_wrote h
  case flag hi _ => exact .inl hi
  case display _ hvf _ => exact .inl (hvf.resolve_left hne)
  case destination x hi hvf _ =>
    have hx : x = 15 := by_contra fun hx => hne (hvf hx)
    subst hx
    exact .inr hi
  all_goals next ht => exact absurd (State.reg_congr (congrArg State.v ht) 15) hne

/-- Settles O56: `Wrote` lists I in one part, with the three instructions. -/
theorem indexIsWrittenOnlyByItsInstructions : Obligations.IndexIsWrittenOnlyByItsInstructions := by
  intro i s t h hne
  cases exec_wrote h
  case index hi _ => exact hi
  all_goals next ht => exact absurd (congrArg State.i ht) hne

theorem exec_stack {i : Instr} {s t : State} (h : exec i s = .next t) :
    (t.stack = s.stack ∧ t.sp = s.sp) ∨ (∃ nnn, i = .call nnn) ∨ i = .ret := by
  cases exec_wrote h
  case stack hi _ => exact .inr hi
  all_goals next ht => rw [ht]; exact .inl ⟨rfl, rfl⟩

theorem exec_disp_events {i : Instr} {s t : State} (h : exec i s = .next t) :
    (t.disp = s.disp ∧ t.events = s.events) ∨ i = .cls ∨ ∃ x y n, i = .drw x y n := by
  cases exec_wrote h
  case display hi _ _ => exact .inr hi
  all_goals next ht => rw [ht]; exact .inl ⟨rfl, rfl⟩

theorem exec_mem {i : Instr} {s t : State} (h : exec i s = .next t) :
    t.mem = s.mem ∨ (∃ x, i = .ldB x) ∨ ∃ x, i = .stRegs x := by
  cases exec_wrote h
  case bytes hi _ => exact .inr hi
  all_goals next ht => rw [ht]; exact .inl rfl

theorem exec_dt {i : Instr} {s t : State} (h : exec i s = .next t) :
    t.dt = s.dt ∨ ∃ x, i = .ldDtVx x ∧ t.dt = s.reg x := by
  cases exec_wrote h
  case delayTimer x hi ht => exact .inr ⟨x, hi, by rw [ht]⟩
  all_goals next ht => rw [ht]; exact .inl rfl

theorem exec_st {i : Instr} {s t : State} (h : exec i s = .next t) :
    t.st = s.st ∨ ∃ x, i = .ldStVx x ∧ t.st = s.reg x := by
  cases exec_wrote h
  case soundTimer x hi ht => exact .inr ⟨x, hi, by rw [ht]⟩
  all_goals next ht => rw [ht]; exact .inl rfl

/-! ### Memory -/

theorem read_load_outside {a b : Nat} {ws : List Byte} (m : Memory) (h : b < a ∨ a + ws.length ≤ b) :
    (Memory.load a ws m).read b = m.read b := by
  induction ws generalizing a m with
  | nil => rfl
  | cons w ws ih =>
    rw [List.length_cons] at h
    rw [Memory.load, ih _ (by omega), Memory.read_write_other _ _ (by omega)]

/-- Settles O59: the two stores load a buffer at I, and a loaded buffer changes nothing outside itself. -/
theorem memoryIsWrittenOnlyByStores : Obligations.MemoryIsWrittenOnlyByStores := by
  intro i s t a h hne
  rcases exec_mem h with hm | ⟨x, rfl⟩ | ⟨x, rfl⟩
  · exact absurd (by rw [hm]) hne
  · obtain ⟨-, rfl⟩ := exec_ldB_inv h
    have hin : ¬ (a < s.effAddr 0 ∨ s.effAddr 0 + 3 ≤ a) := fun hout => hne (read_load_outside s.mem hout)
    refine .inl ⟨⟨x, rfl⟩, ?_⟩
    unfold State.effAddr at hin ⊢
    omega
  · obtain ⟨-, rfl⟩ := exec_stRegs_inv h
    have hin : ¬ (a < s.effAddr 0 ∨ s.effAddr 0 + (x.val + 1) ≤ a) := fun hout =>
      hne (read_load_outside s.mem (by rwa [length_regsUpTo]))
    refine .inr ⟨x, rfl, ?_⟩
    unfold State.effAddr at hin ⊢
    omega

end Sys2Proof.Proofs.Frames
end

section
/-! What the execute phases do not read (10_state.md sections 5, 6 and 10): the stack, ST and the event stream, but for
the instructions that work on them. -/

namespace Sys2Proof.Proofs.Unread

open Sys2Proof.Machine

/-! ### Another stack, sound timer and event stream -/

/-- The state with other values in the parts that most instructions do not reach. -/
def withUnread (slots : Vector Word 16) (p : Fin 17) (b : Byte) (es : List Event) (s : State) : State :=
  { s with stack := slots, sp := p, st := b, events := es }

section
variable (slots : Vector Word 16) (p : Fin 17) (b : Byte) (es : List Event)

theorem writeResultAndFlag_withUnread (s : State) (x : RegIdx) (res flag : Byte) :
    (withUnread slots p b es s).writeResultAndFlag x res flag =
      withUnread slots p b es (s.writeResultAndFlag x res flag) := by
  unfold State.writeResultAndFlag withUnread
  cases s.params.vfWriteOrder <;> rfl

theorem setRegsFrom_withUnread (s : State) (k : Nat) (bs : List Byte) :
    (withUnread slots p b es s).setRegsFrom k bs = withUnread slots p b es (s.setRegsFrom k bs) := by
  induction bs generalizing k s with
  | nil => rfl
  | cons w bs ih =>
    unfold State.setRegsFrom
    split
    · exact ih (s.setReg _ w) (k + 1)
    · rfl

/-- An instruction that works on none of these parts carries them through. -/
theorem exec_withUnread {i : Instr} {s t : State} (h : exec i s = .next t) (hcall : ∀ nnn, i ≠ .call nnn)
    (hret : i ≠ .ret) (hcls : i ≠ .cls) (hdrw : ∀ x y n, i ≠ .drw x y n) (hst : ∀ x, i ≠ .ldStVx x) :
    exec i (withUnread slots p b es s) = .next (withUnread slots p b es t) := by
  cases i
  case call nnn => exact absurd rfl (hcall nnn)
  case ret => exact absurd rfl hret
  case cls => exact absurd rfl hcls
  case drw x y n => exact absurd rfl (hdrw x y n)
  case ldStVx x => exact absurd rfl (hst x)
  case ldB x => obtain ⟨hfit, rfl⟩ := exec_ldB_inv h; exact exec_ldB_ok x hfit
  case stRegs x => obtain ⟨hfit, rfl⟩ := exec_stRegs_inv h; exact exec_stRegs_ok x hfit
  case ldRegs x =>
    obtain ⟨hfit, rfl⟩ := exec_ldRegs_inv h
    rw [← setRegsFrom_withUnread]
    exact exec_ldRegs_ok x hfit
  case ldVxK x =>
    rcases exec_ldVxK_inv h with ⟨k, hk, rfl⟩ | ⟨hk, rfl⟩
    · exact Ports.exec_ldVxK_key x hk
    · exact Ports.exec_ldVxK_none x hk
  case addf | sub | shr | subn | shl =>
    cases h
    exact congrArg Host.Outcome.next (writeResultAndFlag_withUnread slots p b es s _ _ _)
  all_goals cases h; rfl

end

/-- A fault depends on I alone, but for CALL and RET, whose faults depend on SP. -/
theorem exec_fault_congr {i : Instr} {s s' : State} {f : Fault} (h : exec i s = .fault f) (hi : s'.i = s.i)
    (hsp : s'.sp = s.sp ∨ (∀ nnn, i ≠ .call nnn) ∧ i ≠ .ret) : exec i s' = .fault f := by
  rcases Faults.exec_fault_inv h with ⟨nnn, rfl⟩ | rfl | ⟨x, y, n, rfl⟩ | ⟨x, rfl⟩ | ⟨x, rfl⟩ | ⟨x, rfl⟩
  · rw [Faults.exec_call_fault_iff] at h ⊢
    rwa [hsp.resolve_right fun hne => hne.1 nnn rfl]
  · rw [Faults.exec_ret_fault_iff] at h ⊢
    rwa [hsp.resolve_right fun hne => hne.2 rfl]
  · rw [Faults.exec_drw_fault_iff] at h ⊢; rwa [hi]
  · rw [Faults.exec_ldB_fault_iff] at h ⊢; rwa [hi]
  · rw [Faults.exec_stRegs_fault_iff] at h ⊢; rwa [hi]
  · rw [Faults.exec_ldRegs_fault_iff] at h ⊢; rwa [hi]

/-! ### DRW -/

section
variable {s s' : State} (hv : s'.v = s.v) (hi : s'.i = s.i) (hm : s'.mem = s.mem) (hd : s'.disp = s.disp)
include hv hi hm

theorem drawBit_congr (x y : RegIdx) (n : Nibble) : Draw.drawBit x y n s' = Draw.drawBit x y n s := by
  unfold Draw.drawBit spriteRows State.effAddr
  rw [State.reg_congr hv, State.reg_congr hv, hi, hm]

include hd

theorem hit_drawn_congr (x y : RegIdx) (n : Nibble) : (drawn x y n s').1 = (drawn x y n s).1 := by
  rw [Bool.eq_iff_iff, Draw.hit_drawn, Draw.hit_drawn, drawBit_congr hv hi hm, hd]

theorem disp_drawn_congr (x y : RegIdx) (n : Nibble) : (drawn x y n s').2.disp = (drawn x y n s).2.disp :=
  Display.ext_pixel fun px py => by rw [Draw.pixel_drawn, Draw.pixel_drawn, drawBit_congr hv hi hm, hd]

theorem events_drawn_congr (x y : RegIdx) (n : Nibble) (he : s'.events = s.events) (hp : s'.params = s.params) :
    (drawn x y n s').2.events = (drawn x y n s).2.events := by
  rw [Draw.events_drawn, Draw.events_drawn, disp_drawn_congr hv hi hm hd, he, hp, State.reg_congr hv,
    State.reg_congr hv, hm]
  unfold State.effAddr
  rw [hi]

theorem exec_drw_congr (x y : RegIdx) {n : Nibble} (hfit : n = 0 ∨ s.i.toNat + n.toNat ≤ 4096) :
    exec (.drw x y n) s' =
      .next (State.setReg { s' with disp := (drawn x y n s).2.disp, events := (drawn x y n s').2.events } 15
        (flagByte (drawn x y n s).1)) := by
  rw [Draw.exec_drw_drawn x y (by rwa [hi]), hit_drawn_congr hv hi hm hd, disp_drawn_congr hv hi hm hd]

end

/-! ### The stack -/

theorem exec_drw_other_stack {x y : RegIdx} {n : Nibble} {s t : State} (h : exec (.drw x y n) s = .next t)
    (slots : Vector Word 16) (p : Fin 17) :
    exec (.drw x y n) { s with stack := slots, sp := p } = .next { t with stack := slots, sp := p } := by
  obtain ⟨hfit, rfl⟩ := Draw.exec_drw_drawn_inv h
  rw [exec_drw_congr (s' := { s with stack := slots, sp := p }) (s := s) rfl rfl rfl rfl x y hfit,
    events_drawn_congr (s' := { s with stack := slots, sp := p }) (s := s) rfl rfl rfl rfl x y n rfl rfl]
  rfl

/-- Settles O57: CLS, DRW and LD ST, Vx are the only others that work on a part that `withUnread` changes, and that part
is not the stack. -/
theorem stackIsReachedOnlyByCallAndRet : Obligations.StackIsReachedOnlyByCallAndRet := by
  refine ⟨fun i s t h hne => ?_, fun i s slots p hcall hret => ⟨fun t h => ?_, fun f h => ?_⟩⟩
  · exact (Frames.exec_stack h).resolve_left fun hsame => hne.elim (· hsame.1) (· hsame.2)
  · by_cases hcls : i = .cls
    · subst hcls; cases h; rfl
    by_cases hst : ∃ x, i = .ldStVx x
    · obtain ⟨x, rfl⟩ := hst; cases h; rfl
    by_cases hdrw : ∃ x y n, i = .drw x y n
    · obtain ⟨x, y, n, rfl⟩ := hdrw; exact exec_drw_other_stack h slots p
    · have hst_eq : t.st = s.st := (Frames.exec_st h).resolve_right fun ⟨x, hx, _⟩ => hst ⟨x, hx⟩
      have hev_eq : t.events = s.events :=
        ((Frames.exec_disp_events h).resolve_right (not_or.2 ⟨hcls, hdrw⟩)).2
      have hcarried : withUnread slots p s.st s.events t = { t with stack := slots, sp := p } := by
        rw [← hst_eq, ← hev_eq]
        rfl
      rw [← hcarried]
      exact exec_withUnread slots p s.st s.events h hcall hret hcls (fun x y n e => hdrw ⟨x, y, n, e⟩)
        fun x e => hst ⟨x, e⟩
  · exact exec_fault_congr h rfl (.inr ⟨hcall, hret⟩)

/-! ### The sound timer and the event stream -/

theorem exec_drw_other_stream {x y : RegIdx} {n : Nibble} {s t : State} (h : exec (.drw x y n) s = .next t) (b : Byte)
    (es : List Event) :
    ∃ t', exec (.drw x y n) { s with st := b, events := es } = .next t' ∧
      t' = { t with st := t'.st, events := t'.events } := by
  obtain ⟨hfit, rfl⟩ := Draw.exec_drw_drawn_inv h
  exact ⟨_, exec_drw_congr (s := s) (s' := { s with st := b, events := es }) rfl rfl rfl rfl x y hfit, rfl⟩

/-- Settles O60: CALL and RET read the stack alone, and CLS, DRW and LD ST, Vx write what they do not read. -/
theorem soundTimerAndEventsAreNeverRead : Obligations.SoundTimerAndEventsAreNeverRead := by
  refine fun i s b es => ⟨fun t h => ?_, fun f h => exec_fault_congr h rfl (.inl rfl)⟩
  by_cases hcall : ∃ nnn, i = .call nnn
  · obtain ⟨nnn, rfl⟩ := hcall
    obtain ⟨hfree, rfl⟩ := exec_call_inv h
    exact ⟨_, Stack.exec_call_ok (s := { s with st := b, events := es }) nnn hfree, rfl⟩
  by_cases hret : i = .ret
  · subst hret
    obtain ⟨p, hused, rfl⟩ := exec_ret_inv h
    exact ⟨_, Stack.exec_ret_ok (s := { s with st := b, events := es }) hused, rfl⟩
  by_cases hcls : i = .cls
  · subst hcls; cases h; exact ⟨_, rfl, rfl⟩
  by_cases hst : ∃ x, i = .ldStVx x
  · obtain ⟨x, rfl⟩ := hst; cases h; exact ⟨_, rfl, rfl⟩
  by_cases hdrw : ∃ x y n, i = .drw x y n
  · obtain ⟨x, y, n, rfl⟩ := hdrw; exact exec_drw_other_stream h b es
  · obtain ⟨hstack, hsp⟩ := (Frames.exec_stack h).resolve_right (not_or.2 ⟨hcall, hret⟩)
    refine ⟨_, exec_withUnread s.stack s.sp b es h (fun nnn e => hcall ⟨nnn, e⟩) hret hcls
      (fun x y n e => hdrw ⟨x, y, n, e⟩) fun x e => hst ⟨x, e⟩, ?_⟩
    rw [← hstack, ← hsp]
    rfl

end Sys2Proof.Proofs.Unread
end

section
/-! One step (40_execution_cycle.md sections 2 to 4): the tick and its ends, the skips, the quit poll, the waiting, and
what of all that may change a timer or the display. -/

namespace Sys2Proof.Proofs.Steps

open Sys2Proof.Machine

/-! ### What follows an execute phase -/

section
variable (i : Instr) (u : State)

theorem finishTick_mem : (finishTick i u).mem = u.mem := by rw [finishTick_frame]
theorem finishTick_dt : (finishTick i u).dt = u.dt := by rw [finishTick_frame]
theorem finishTick_st : (finishTick i u).st = u.st := by rw [finishTick_frame]
theorem finishTick_disp : (finishTick i u).disp = u.disp := by rw [finishTick_frame]
theorem finishTick_events : (finishTick i u).events = u.events := by rw [finishTick_frame]
theorem finishTick_status : (finishTick i u).status = u.status := by rw [finishTick_frame]
theorem finishTick_quit : (finishTick i u).quit = u.quit := by rw [finishTick_frame]

end

/-- A blocked Fx0A gets no advance, and its tick does not end (R83). -/
theorem finishTick_waiting (i : Instr) {u : State} {x : RegIdx} (h : u.status = .waitKey x) : finishTick i u = u := by
  simp only [finishTick, h]

theorem runInstr_next {i : Instr} {s t : State} (h : exec i s = .next t) : runInstr i s = .next (finishTick i t) := by
  rw [runInstr, h]

theorem runInstr_fault {i : Instr} {s : State} {f : Fault} (h : exec i s = .fault f) : runInstr i s = .fault f := by
  rw [runInstr, h]

/-! ### Every step -/

/-- The instruction whose execute phase a step is: of the tick that begins, or of the Fx0A that waits. -/
def Executes (s : State) (i : Instr) : Prop := s.AboutToRun i ∨ ∃ x, s.status = .waitKey x ∧ i = .ldVxK x

/-- Everything a step that goes on can have been, in terms of `exec`. -/
theorem step_cases {s t : State} (h : step s = .next t) :
    ((s.status = .haltPc ∨ s.status = .haltQuit) ∧ t = s) ∨
    (s.status = .run ∧ s.phase = .poll ∧ t = quitPoll s) ∨
    (s.status = .run ∧ s.phase = .frameEnd ∧ t = frameEnd s) ∨
    (s.status = .run ∧ s.phase = .tick ∧ 4096 ≤ s.pc.toNat ∧ t = s.setStatus .haltPc) ∨
    ∃ i u, Executes s i ∧ exec i s = .next u ∧ t = finishTick i u := by
  rcases step_inv h with hend | ⟨x, hwait, hrun⟩ | hpoll | hframe | hpast | ⟨i, hi, hrun⟩
  · exact .inl hend
  · obtain ⟨u, hu, ht⟩ := runInstr_inv hrun
    exact .inr (.inr (.inr (.inr ⟨_, u, .inr ⟨x, hwait, rfl⟩, hu, ht⟩)))
  · exact .inr (.inl hpoll)
  · exact .inr (.inr (.inl hframe))
  · exact .inr (.inr (.inr (.inl hpast)))
  · obtain ⟨u, hu, ht⟩ := runInstr_inv hrun
    exact .inr (.inr (.inr (.inr ⟨i, u, .inl hi, hu, ht⟩)))

theorem Executes.aboutToRun {s : State} {i : Instr} (h : Executes s i) (hi : ∀ x, i ≠ .ldVxK x) : s.AboutToRun i :=
  h.resolve_right fun ⟨x, _, hx⟩ => hi x hx

/-- A step that leaves an Fx0A waiting is the execute phase of an Fx0A. -/
theorem Executes.eq_ldVxK {s u : State} {i : Instr} {x : RegIdx} (h : Executes s i) (hu : exec i s = .next u)
    (hwait : u.status = .waitKey x) : ∃ y, i = .ldVxK y := by
  rcases h with ⟨hrun, -⟩ | ⟨y, -, hi⟩
  · rcases exec_status hu with hsame | ⟨y, hi, -⟩
    · rw [hsame, hrun] at hwait
      cases hwait
    · exact ⟨y, hi⟩
  · exact ⟨y, hi⟩

/-! ### The tick -/

theorem settle_ne_refused (e : Except Fault State) (r : Refusal) : settle e ≠ .refused r := by
  cases e <;> exact nofun

theorem exec_ne_refused (i : Instr) (s : State) (r : Refusal) : exec i s ≠ .refused r := by
  cases i
  case call nnn => show execCall nnn s ≠ _; unfold execCall; split <;> exact nofun
  case ret => show execRet s ≠ _; unfold execRet; split <;> exact nofun
  case drw x y n => show execDrw x y n s ≠ _; unfold execDrw; split <;> exact nofun
  case ldRegs x => show execLdRegs x s ≠ _; unfold execLdRegs; split <;> exact nofun
  case ldB x => exact settle_ne_refused _ r
  case stRegs x => exact settle_ne_refused _ r
  all_goals exact nofun

theorem transfers_iff (i : Instr) : transfers i = true ↔ IsTransfer i := by
  cases i <;> simp [transfers, IsTransfer]

/-- Settles O6: the step is `runInstr`, and `transfers` is the list of R74. -/
theorem stepRunsDecodedInstruction : Obligations.StepRunsDecodedInstruction := by
  intro s i hi
  rw [step_aboutToRun hi]
  refine ⟨fun f => runInstr_fault, exec_ne_refused i s, fun t h =>
    ⟨fun x hwait => ?_, fun hgo => ⟨fun htr => ?_, fun htr => ?_⟩⟩⟩
  · rw [runInstr_next h, finishTick_waiting i hwait]
  · rw [runInstr_next h, finishTick_done hgo, if_pos ((transfers_iff i).2 htr)]
  · rw [runInstr_next h, finishTick_done hgo, if_neg fun e => htr ((transfers_iff i).1 e)]

theorem step_tick {s : State} (hrun : s.status = .run) (hphase : s.phase = .tick) : step s = tickStep s := by
  simp only [step, hrun, hphase]

theorem tickStep_of_fetch_error {s : State} {f : Fault} (hpc : s.pc.toNat < 4096) (hfetch : fetch s = .error f) :
    tickStep s = .fault f := by
  rw [tickStep, if_neg (Nat.not_le.2 hpc), hfetch]
  rfl

theorem tickStep_of_decode_error {s : State} {b0 b1 c0 c1 : Byte} (hpc : s.pc.toNat < 4096)
    (hfetch : fetch s = .ok (b0, b1)) (hdecode : decode b0 b1 = .error (.decodeError c0 c1)) :
    tickStep s = .fault (.decodeError c0 c1) := by
  simp only [tickStep, if_neg (Nat.not_le.2 hpc), hfetch, hdecode]
  rfl

/-- Settles O8: the check precedes the fetch. -/
theorem pcPastEndHalts : Obligations.PcPastEndHalts := by
  intro s hrun hphase hpc
  rw [step_tick hrun hphase, tickStep, if_pos hpc]
  rfl

/-- Settles O9: at 4095 the termination check passes and the second read of the fetch is out of range. -/
theorem fetchReadsTwoBytes : Obligations.FetchReadsTwoBytes := by
  refine fun s => ⟨fetch_below_end s, fun hpc => ⟨fetch_at_end s hpc, fun hrun hphase => ?_⟩⟩
  rw [step_tick hrun hphase]
  exact tickStep_of_fetch_error (by omega) (fetch_at_end s hpc)

/-- Settles O10: the decoder's error carries the two bytes it was given. -/
theorem illegalWordStopsTheMachine : Obligations.IllegalWordStopsTheMachine := by
  intro s e hrun hphase hpc hdecode
  obtain ⟨-, rfl⟩ := (Encoding.decode_error_iff _ _ e).1 hdecode
  rw [step_tick hrun hphase]
  exact tickStep_of_decode_error (by omega) (fetch_below_end s hpc) hdecode

/-! ### Skips -/

/-- A skip that leaves `u`, which is `w` but for the PC. -/
theorem step_skip {s u w : State} {i : Instr} {p : Prop} [Decidable p] (hi : s.AboutToRun i)
    (hexec : exec i s = .next u) (hstatus : u.status = s.status) (htransfer : transfers i = false)
    (hpc : u.pc = if p then s.pc + 2 else s.pc) (hw : ∀ pc, u.tickDone pc = w.tickDone pc) :
    step s = .next (w.tickDone (if p then s.pc + 4 else s.pc + 2)) := by
  have hgo : ∀ x, u.status ≠ .waitKey x := by
    rw [hstatus, hi.1]
    exact fun _ => Status.noConfusion
  have hfour : s.pc + 2 + 2 = s.pc + 4 := BitVec.add_assoc _ _ _
  rw [step_aboutToRun hi, runInstr_next hexec, finishTick_done hgo, htransfer, if_neg Bool.false_ne_true, hw, hpc]
  split
  · rw [hfour]
  · rfl

/-- Settles O7: the 2 of the skip and the 2 of the advance; `tickDone` overwrites the PC that the skip left. -/
theorem skipsNetFourBytes : Obligations.SkipsNetFourBytes :=
  fun s _ _ _ =>
    ⟨fun hi => step_skip hi rfl rfl rfl (Flow.skipIf_pc beq_iff_eq s) fun _ => rfl,
     fun hi => step_skip hi rfl rfl rfl (Flow.skipIf_pc bne_iff_ne s) fun _ => rfl,
     fun hi => step_skip hi rfl rfl rfl (Flow.skipIf_pc beq_iff_eq s) fun _ => rfl,
     fun hi => step_skip hi rfl rfl rfl (Flow.skipIf_pc bne_iff_ne s) fun _ => rfl,
     fun hi => step_skip hi rfl rfl rfl (Flow.skipIf_pc Iff.rfl s) fun _ => rfl,
     fun hi => step_skip hi rfl rfl rfl (Flow.skipIf_pc (Bool.not_eq_true' _).to_iff s) fun _ => rfl⟩

/-! ### Waiting -/

theorem step_waiting {s : State} {x : RegIdx} (h : s.status = .waitKey x) : step s = runInstr (.ldVxK x) s := by
  simp only [step, h]

/-- Settles O15: the step polls again by the meaning of LD Vx, K, and finishes the tick only where a key has arrived. -/
theorem waitingForAKeyFreezesTheMachine : Obligations.WaitingForAKeyFreezesTheMachine := by
  refine fun s x hwait => ⟨fun hnone => ?_, fun k hkey => ?_⟩
  · rw [step_waiting hwait, runInstr_next (Ports.exec_ldVxK_none x hnone), finishTick_waiting _ rfl, ← hwait]
    rfl
  · obtain ⟨t, ht, hframe, hreg, hregs, -⟩ := Ports.keyReadCompletesWithAKey x s k hkey
    have hgo : ∀ y, t.status ≠ .waitKey y := by
      rw [hframe]
      exact fun _ => Status.noConfusion
    refine ⟨t, ?_, hframe, hreg, hregs⟩
    rw [step_waiting hwait, runInstr_next ht, finishTick_done hgo, show t.pc = s.pc by rw [hframe]]
    rfl

/-! ### The quit poll and the ends of a run -/

theorem step_poll {s : State} (hrun : s.status = .run) (hphase : s.phase = .poll) : step s = .next (quitPoll s) := by
  simp only [step, hrun, hphase]

theorem quitPoll_requested {s : State} (h : s.isQuitRequested = true) :
    quitPoll s = { s with status := .haltQuit, quit := s.quit.advance } := by
  rw [quitPoll, if_pos h]
  rfl

theorem quitPoll_not_requested {s : State} (h : s.isQuitRequested = false) :
    quitPoll s = { s with
      tick := 0, phase := if 0 < s.params.tpf then .tick else .frameEnd, quit := s.quit.advance } := by
  rw [quitPoll, if_neg (by rw [h]; exact Bool.false_ne_true)]
  rfl

theorem quitPoll_frame (s : State) :
    quitPoll s = { s with
      status := (quitPoll s).status, tick := (quitPoll s).tick, phase := (quitPoll s).phase,
      quit := s.quit.advance } := by
  cases h : s.isQuitRequested
  · rw [quitPoll_not_requested h]
  · rw [quitPoll_requested h]

/-- Settles O11: no execute phase and no frame end reaches the quit port. -/
theorem quitIsPolledAtFrameStartOnly : Obligations.QuitIsPolledAtFrameStartOnly := by
  refine ⟨fun s hrun hphase => ⟨fun h => ?_, fun h => ?_⟩, fun s t h hnot => ?_⟩
  · rw [step_poll hrun hphase, quitPoll_requested h]
  · rw [step_poll hrun hphase, quitPoll_not_requested h]
  · rcases step_cases h with ⟨-, rfl⟩ | ⟨hrun, hphase, -⟩ | ⟨-, -, rfl⟩ | ⟨-, -, -, rfl⟩ | ⟨i, u, -, hu, rfl⟩
    · rfl
    · exact absurd ⟨hrun, hphase⟩ hnot
    · rfl
    · rfl
    · rw [finishTick_quit, exec_frame hu]

theorem not_ended_of_run {s : State} (h : s.status = .run) : ¬ s.Ended := by
  simp [State.Ended, h]

theorem not_ended_of_waiting {s : State} {x : RegIdx} (h : s.status = .waitKey x) : ¬ s.Ended := by
  simp [State.Ended, h]

theorem Executes.not_ended_after {s u : State} {i : Instr} (h : Executes s i) (hu : exec i s = .next u) :
    ¬ u.Ended := by
  rcases exec_status hu with hsame | ⟨x, -, hrun | hwait⟩
  · rcases h with ⟨hrun, -⟩ | ⟨x, hwait, -⟩
    · exact not_ended_of_run (hsame.trans hrun)
    · exact not_ended_of_waiting (hsame.trans hwait)
  · exact not_ended_of_run hrun
  · exact not_ended_of_waiting hwait

theorem ended_congr {s t : State} (h : t.status = s.status) : t.Ended ↔ s.Ended := by
  unfold State.Ended
  rw [h]

/-- Settles O14: of the steps that go on, only the termination check and the quit poll write an end to STATUS. -/
theorem endedRunsAreAbsorbing : Obligations.EndedRunsAreAbsorbing := by
  refine ⟨fun s h => ?_, fun s f h => ?_, fun s t hnot h hend => ?_⟩
  · rcases h with h | h <;> simp only [step, h]
  · simp only [step, h]
    rfl
  · rcases step_cases h with
      ⟨hhalt, -⟩ | ⟨hrun, hphase, rfl⟩ | ⟨hrun, -, rfl⟩ | ⟨-, hphase, hpc, rfl⟩ | ⟨i, u, hi, hu, rfl⟩
    · exact absurd (hhalt.imp_right .inl) hnot
    · cases hq : s.isQuitRequested
      · rw [quitPoll_not_requested hq] at hend
        exact absurd hend (not_ended_of_run hrun)
      · rw [quitPoll_requested hq]
        exact .inr ⟨rfl, hphase, rfl⟩
    · exact absurd hend (not_ended_of_run hrun)
    · exact .inl ⟨rfl, hphase, hpc⟩
    · exact absurd ((ended_congr (finishTick_status i u)).1 hend) (hi.not_ended_after hu)

/-! ### Timers and the display -/

/-- Settles O13: beside the frame end, only an execute phase can write a timer. -/
theorem timersChangeOnlyAtFrameEndOrByLoad : Obligations.TimersChangeOnlyAtFrameEndOrByLoad := by
  intro s t h hnot
  rcases step_cases h with ⟨-, rfl⟩ | ⟨-, -, rfl⟩ | ⟨hrun, hphase, -⟩ | ⟨-, -, -, rfl⟩ | ⟨i, u, hi, hu, rfl⟩
  · exact ⟨.inl rfl, .inl rfl⟩
  · rw [quitPoll_frame]
    exact ⟨.inl rfl, .inl rfl⟩
  · exact absurd ⟨hrun, hphase⟩ hnot
  · exact ⟨.inl rfl, .inl rfl⟩
  · rw [finishTick_dt, finishTick_st]
    refine ⟨(Frames.exec_dt hu).imp_right ?_, (Frames.exec_st hu).imp_right ?_⟩
    all_goals
      rintro ⟨x, rfl, hx⟩
      exact ⟨x, hi.aboutToRun (fun _ => Instr.noConfusion), hx⟩

/-- Settles O58: CLS and DRW run at the start of their tick, as no waiting instruction is one of them. -/
theorem displayIsWrittenOnlyByClearAndDraw : Obligations.DisplayIsWrittenOnlyByClearAndDraw := by
  refine ⟨fun i s t h hne => ?_, fun s t h => ?_⟩
  · exact (Frames.exec_disp_events h).resolve_left fun hsame => hne.elim (· hsame.1) (· hsame.2)
  rcases step_cases h with ⟨-, rfl⟩ | ⟨-, -, rfl⟩ | ⟨hrun, hphase, rfl⟩ | ⟨-, -, -, rfl⟩ | ⟨i, u, hi, hu, rfl⟩
  · exact ⟨absurd rfl, absurd rfl⟩
  · rw [quitPoll_frame]
    exact ⟨absurd rfl, absurd rfl⟩
  · exact ⟨absurd rfl, fun _ => .inr (.inr ⟨hrun, hphase⟩)⟩
  · exact ⟨absurd rfl, absurd rfl⟩
  · rw [finishTick_disp, finishTick_events]
    rcases Frames.exec_disp_events hu with ⟨hdisp, hevents⟩ | rfl | ⟨x, y, n, rfl⟩
    · exact ⟨absurd hdisp, absurd hevents⟩
    · have hcls := hi.aboutToRun fun _ => Instr.noConfusion
      exact ⟨fun _ => .inl hcls, fun _ => .inl hcls⟩
    · have hdrw := hi.aboutToRun fun _ => Instr.noConfusion
      exact ⟨fun _ => .inr ⟨x, y, n, hdrw⟩, fun _ => .inr (.inl ⟨x, y, n, hdrw⟩)⟩

end Sys2Proof.Proofs.Steps
end

section
/-! The four invariants (10_state.md R13, R19, 44_display.md R134, log 3): each is kept by the execute phases, by what
follows them, and by the other steps. -/

namespace Sys2Proof.Proofs.Invariants

open Sys2Proof.Machine Steps

/-! ### Canonical memory -/

theorem exec_keeps_canonical {i : Instr} {s t : State} (hm : s.MemoryCanonical) (h : exec i s = .next t) :
    t.MemoryCanonical := by
  rcases Frames.exec_mem h with hsame | ⟨x, rfl⟩ | ⟨x, rfl⟩
  · unfold State.MemoryCanonical
    rwa [hsame]
  · obtain ⟨hfit, rfl⟩ := exec_ldB_inv h
    exact Memory.wf_load hm hfit
  · obtain ⟨hfit, rfl⟩ := exec_stRegs_inv h
    exact Memory.wf_load hm (by rwa [length_regsUpTo])

/-- Settles O16: the only writes of memory are loads of buffers that fit. -/
theorem memoryStaysCanonical : Obligations.MemoryStaysCanonical := by
  intro s t hm h
  rcases step_cases h with ⟨-, rfl⟩ | ⟨-, -, rfl⟩ | ⟨-, -, rfl⟩ | ⟨-, -, -, rfl⟩ | ⟨i, u, -, hu, rfl⟩
  · exact hm
  · rw [quitPoll_frame]
    exact hm
  · exact hm
  · exact hm
  · unfold State.MemoryCanonical
    rw [finishTick_mem]
    exact exec_keeps_canonical hm hu

/-! ### PC and the stack -/

theorem toNat_add_two {w : Word} (h : w.toNat ≤ 4096) : (w + 2).toNat = w.toNat + 2 := by
  rw [BitVec.toNat_add]
  exact Nat.mod_eq_of_lt (show w.toNat + 2 < 65536 by omega)

theorem exec_pc_le {i : Instr} {s t : State} (h : exec i s = .next t) (hpc : s.pc.toNat ≤ 4094)
    (hstack : ∀ k : Fin 16, s.stack[k].toNat ≤ 4094) :
    (transfers i = true ∧ t.pc.toNat ≤ 0x10FE) ∨ t.pc.toNat ≤ 4096 := by
  cases Frames.exec_wrote h
  case jump hi hle _ => exact .inl ⟨hi, hle⟩
  case skip hskip _ =>
    refine .inr ?_
    rcases hskip with e | e
    · rw [e]; omega
    · rw [e, toNat_add_two (by omega)]; omega
  case stack hi _ =>
    rcases hi with ⟨nnn, rfl⟩ | rfl
    · obtain ⟨_, rfl⟩ := exec_call_inv h
      exact .inl ⟨rfl, Frames.toNat_jumpTo_pc_le _ nnn⟩
    · obtain ⟨p, hused, rfl⟩ := exec_ret_inv h
      exact .inr (Nat.le_trans (hstack ⟨p, by omega⟩) (by decide))
  all_goals next ht => rw [ht]; exact .inr (Nat.le_trans hpc (by decide))

theorem exec_stack_le {i : Instr} {s t : State} (h : exec i s = .next t) (hpc : s.pc.toNat ≤ 4094)
    (hstack : ∀ k : Fin 16, s.stack[k].toNat ≤ 4094) (k : Fin 16) : t.stack[k].toNat ≤ 4094 := by
  rcases Frames.exec_stack h with ⟨hsame, -⟩ | ⟨nnn, rfl⟩ | rfl
  · rw [hsame]
    exact hstack k
  · obtain ⟨hfree, rfl⟩ := exec_call_inv h
    show ((s.stack.set s.sp.val s.pc hfree)[k]).toNat ≤ 4094
    rw [Stack.getElem_stack_set]
    split
    · exact hpc
    · exact hstack k
  · obtain ⟨p, _, rfl⟩ := exec_ret_inv h
    exact hstack k

theorem executes_pc_le {s : State} {i : Instr} (hb : s.PcBounded) (hi : Executes s i) : s.pc.toNat ≤ 4094 := by
  obtain ⟨-, -, hwaits⟩ := hb
  rcases hi with ⟨-, -, hpc, -⟩ | ⟨x, hwait, -⟩
  · exact hpc
  · exact hwaits x hwait

theorem exec_ldVxK_pc {x : RegIdx} {s t : State} (h : exec (.ldVxK x) s = .next t) : t.pc = s.pc := by
  rcases exec_ldVxK_inv h with ⟨_, -, rfl⟩ | ⟨-, rfl⟩ <;> rfl

theorem pcBounded_of_not_waiting {s : State} (hpc : s.pc.toNat ≤ 0x10FE)
    (hstack : ∀ k : Fin 16, s.stack[k].toNat ≤ 4094) (hgo : ∀ x, s.status ≠ .waitKey x) : s.PcBounded :=
  ⟨hpc, hstack, fun x hwait => absurd hwait (hgo x)⟩

/-- An instruction that was fetched leaves PC at most 4096 before the advance, or transfers to at most 4095 + 255. -/
theorem executes_keeps_pcBounded {s u : State} {i : Instr} (hb : s.PcBounded) (hi : Executes s i)
    (hu : exec i s = .next u) : (finishTick i u).PcBounded := by
  have hpc := executes_pc_le hb hi
  obtain ⟨-, hslots, -⟩ := hb
  have hstack := exec_stack_le hu hpc hslots
  by_cases hwait : ∃ x, u.status = .waitKey x
  · obtain ⟨x, hwait⟩ := hwait
    obtain ⟨y, rfl⟩ := hi.eq_ldVxK hu hwait
    rw [finishTick_waiting _ hwait]
    unfold State.PcBounded
    rw [exec_ldVxK_pc hu]
    exact ⟨by omega, hstack, fun _ _ => hpc⟩
  · rw [not_exists] at hwait
    rw [finishTick_done hwait]
    refine pcBounded_of_not_waiting ?_ hstack hwait
    show (if transfers i then u.pc else u.pc + 2).toNat ≤ 0x10FE
    rcases exec_pc_le hu hpc hslots with ⟨htr, hle⟩ | hle
    · rwa [if_pos htr]
    · split
      · omega
      · rw [toNat_add_two hle]; omega

/-- Settles O17: the steps that are no execute phase leave PC and the stack, and none of them waits. -/
theorem pcStaysBounded : Obligations.PcStaysBounded := by
  intro s t hb h
  have ⟨hpc, hstack, _⟩ := hb
  rcases step_cases h with ⟨-, rfl⟩ | ⟨hrun, -, rfl⟩ | ⟨hrun, -, rfl⟩ | ⟨-, -, -, rfl⟩ | ⟨i, u, hi, hu, rfl⟩
  · exact hb
  · cases hq : s.isQuitRequested
    · rw [quitPoll_not_requested hq]
      exact hb
    · rw [quitPoll_requested hq]
      exact pcBounded_of_not_waiting hpc hstack nofun
  · exact hb
  · exact pcBounded_of_not_waiting hpc hstack nofun
  · exact executes_keeps_pcBounded hb hi hu

/-! ### TICK and the frame position -/

/-- After `n` ticks the frame is before the next one or at its end, by whether `n` is below TPF (R77). -/
theorem frameLegal_of_ticks {s : State} (hle : s.tick ≤ s.params.tpf)
    (hphase : s.phase = if s.tick < s.params.tpf then .tick else .frameEnd) (hgo : ∀ x, s.status ≠ .waitKey x) :
    s.FrameLegal := by
  refine ⟨hle, fun htick => ?_, fun hend => ?_, fun x hwait => absurd hwait (hgo x)⟩
  · by_contra hlt
    rw [hphase, if_neg hlt] at htick
    cases htick
  · by_contra hne
    rw [hphase, if_pos (by omega)] at hend
    cases hend

/-- An execute phase starts with a tick of the frame still to be done, which the end of the tick counts. -/
theorem executes_keeps_frameLegal {s u : State} {i : Instr} (hl : s.FrameLegal) (hi : Executes s i)
    (hu : exec i s = .next u) : (finishTick i u).FrameLegal := by
  obtain ⟨hle, hbelow, -, hwaits⟩ := hl
  have hphase : s.phase = .tick := by
    rcases hi with ⟨-, hphase, -⟩ | ⟨x, hwait, -⟩
    · exact hphase
    · exact hwaits x hwait
  have hlt := hbelow hphase
  have htick : u.tick = s.tick := by rw [exec_frame hu]
  have hparams : u.params = s.params := by rw [exec_frame hu]
  have hphase' : u.phase = .tick := by rw [exec_frame hu, hphase]
  by_cases hwait : ∃ x, u.status = .waitKey x
  · obtain ⟨x, hwait⟩ := hwait
    rw [finishTick_waiting _ hwait]
    unfold State.FrameLegal
    rw [htick, hparams, hphase']
    exact ⟨hle, fun _ => hlt, nofun, fun _ _ => rfl⟩
  · rw [not_exists] at hwait
    rw [finishTick_done hwait]
    refine frameLegal_of_ticks ?_ rfl hwait
    show u.tick + 1 ≤ u.params.tpf
    rw [htick, hparams]
    exact hlt

/-- Settles O18: the quit poll sets TICK to 0 with the phase that follows, and the other steps that are no execute phase
leave TICK. -/
theorem frameStaysLegal : Obligations.FrameStaysLegal := by
  intro s t hl h
  have ⟨hle, hbelow, hend, _⟩ := hl
  rcases step_cases h with ⟨-, rfl⟩ | ⟨hrun, -, rfl⟩ | ⟨hrun, -, rfl⟩ | ⟨-, -, -, rfl⟩ | ⟨i, u, hi, hu, rfl⟩
  · exact hl
  · cases hq : s.isQuitRequested
    · rw [quitPoll_not_requested hq]
      refine frameLegal_of_ticks (Nat.zero_le _) rfl fun x hwait => ?_
      cases hrun.symm.trans hwait
    · rw [quitPoll_requested hq]
      exact ⟨hle, hbelow, hend, nofun⟩
  · refine ⟨hle, nofun, nofun, fun x hwait => ?_⟩
    cases hrun.symm.trans hwait
  · exact ⟨hle, hbelow, hend, nofun⟩
  · exact executes_keeps_frameLegal hl hi hu

/-! ### The display and the event stream -/

theorem dispClear_displayIsReplay (s : State) : (dispClear s).DisplayIsReplay := replay_append s.events .cleared

theorem exec_keeps_replay {i : Instr} {s t : State} (hr : s.DisplayIsReplay) (h : exec i s = .next t) :
    t.DisplayIsReplay := by
  rcases Frames.exec_disp_events h with ⟨hdisp, hevents⟩ | rfl | ⟨x, y, n, rfl⟩
  · unfold State.DisplayIsReplay
    rw [hdisp, hevents]
    exact hr
  · cases h
    exact dispClear_displayIsReplay s
  · obtain ⟨-, rfl⟩ := exec_drw_inv h
    exact drawRows_keeps_replay _ _ _ hr

/-- Settles O19: the event of a frame end toggles nothing, and the other steps that are no execute phase emit none. -/
theorem displayStaysTheReplayOfEvents : Obligations.DisplayStaysTheReplayOfEvents := by
  intro s t hr h
  rcases step_cases h with ⟨-, rfl⟩ | ⟨-, -, rfl⟩ | ⟨-, -, rfl⟩ | ⟨-, -, -, rfl⟩ | ⟨i, u, -, hu, rfl⟩
  · exact hr
  · rw [quitPoll_frame]
    exact hr
  · exact (replay_append s.events .framePresented).trans hr
  · exact hr
  · unfold State.DisplayIsReplay
    rw [finishTick_disp, finishTick_events]
    exact exec_keeps_replay hr hu

end Sys2Proof.Proofs.Invariants
end

section
/-! The machine after a reset (20_memory.md R36, R41, 70_reset_and_hazards.md R180, R181): its registers, its memory,
and the invariants that hold there. -/

namespace Sys2Proof.Proofs.ResetImage

open Sys2Proof.Machine

/-! ### The invariants -/

theorem frameLegal_of_start {s : State} (htick : s.tick = 0) (hphase : s.phase = .poll) (hrun : s.status = .run) :
    s.FrameLegal := by
  unfold State.FrameLegal
  rw [htick, hphase, hrun]
  exact ⟨Nat.zero_le _, nofun, nofun, nofun⟩

theorem pcBounded_of_start {s : State} (hpc : s.pc = 512) (hstack : s.stack = Vector.replicate 16 0)
    (hrun : s.status = .run) : s.PcBounded := by
  unfold State.PcBounded
  rw [hpc, hrun]
  refine ⟨by decide, fun k => ?_, nofun⟩
  simp [hstack]

/-- Settles O20: the machine starts at 512 with an empty stack, before the quit poll of a frame, its display blank and
its memory and event stream empty lists. -/
theorem resetMeetsTheInvariants : Obligations.ResetMeetsTheInvariants :=
  ⟨rfl, pcBounded_of_start rfl rfl rfl, frameLegal_of_start rfl rfl rfl, rfl⟩

theorem length_font (font : Vector Byte 80) : font.toList.length = 80 := Vector.length_toList

/-- The font alone in memory. -/
theorem wf_font (font : Vector Byte 80) : Memory.wf (Memory.load 0 font.toList []) = true :=
  Memory.wf_load rfl (by rw [length_font]; decide)

/-- Settles O21: the memory is two loads of buffers that fit, and all that the other invariants speak of is as in the
machine's own reset. -/
theorem loadedMachineMeetsTheInvariants : Obligations.LoadedMachineMeetsTheInvariants := by
  intro p font program s hfit
  rw [Reset.resetWith_fits p font s hfit]
  refine ⟨Memory.wf_load (wf_font font) (show 512 + program.length ≤ 4096 by omega), pcBounded_of_start rfl rfl rfl,
    frameLegal_of_start rfl rfl rfl, rfl⟩

/-! ### Memory -/

theorem read_font (font : Vector Byte 80) (a : Nat) :
    (Memory.load 0 font.toList []).read a = if a < 80 then font.toList.getD a 0 else Memory.unlisted a := by
  rw [Memory.read_load rfl (by rw [length_font]; decide), length_font, Memory.read_nil]
  simp only [Nat.zero_le, true_and, Nat.zero_add, Nat.sub_zero]

theorem read_resetWith_font (p : Params) (font : Vector Byte 80) {program : List Byte} (s : State)
    (hfit : program.length ≤ 3584) {a : Nat} (ha : a < 80) : (resetWith p font program s).mem.read a = font[a] := by
  rw [Reset.resetWith_fits p font s hfit]
  show (Memory.load 512 program (Memory.load 0 font.toList [])).read a = font[a]
  rw [Memory.read_load (wf_font font) (show 512 + program.length ≤ 4096 by omega), if_neg (by omega), read_font,
    if_pos ha]
  simp [List.getD_eq_getElem?_getD, ha]

/-- From 512 on the program, and zeros behind it. -/
theorem read_resetWith_program (p : Params) (font : Vector Byte 80) {program : List Byte} (s : State)
    (hfit : program.length ≤ 3584) (k : Nat) :
    (resetWith p font program s).mem.read (512 + k) = program.getD k 0 := by
  rcases Nat.lt_or_ge k program.length with hk | hk
  · rw [Reset.resetWith_fits p font s hfit]
    show (Memory.load 512 program (Memory.load 0 font.toList [])).read (512 + k) = program.getD k 0
    rw [Memory.read_load (wf_font font) (show 512 + program.length ≤ 4096 by omega), if_pos (by omega),
      Nat.add_sub_cancel_left]
  · rw [Reset.read_resetWith_uncovered p font s hfit (by omega) (.inr (by omega)), List.getD_eq_default _ _ hk]

theorem resetWith_pc (p : Params) (font : Vector Byte 80) {program : List Byte} (s : State)
    (hfit : program.length ≤ 3584) : (resetWith p font program s).pc = 512 := by
  rw [Reset.resetWith_fits p font s hfit]
  rfl

/-- Settles O22: the two buffers do not overlap, and the fetch at 512 reads the program at its offsets 0 and 1. -/
theorem resetBuildsTheMemoryImage : Obligations.ResetBuildsTheMemoryImage := by
  refine fun p font program s =>
    ⟨fun hfit => ⟨fun a ha => read_resetWith_font p font s hfit ha,
      fun a hlo hhi => Reset.read_resetWith_uncovered p font s hfit hlo (.inl hhi), fun k hk => ?_,
      fun a hlo _ => Reset.read_resetWith_uncovered p font s hfit (by omega) (.inr hlo), ?_, highByte_wordOf _ _⟩,
     fun hlarge => ?_⟩
  · rw [read_resetWith_program p font s hfit, List.getD_eq_getElem _ _ hk]
  · have hpc : (resetWith p font program s).pc.toNat = 512 := congrArg BitVec.toNat (resetWith_pc p font s hfit)
    have h0 := read_resetWith_program p font s hfit 0
    have h1 := read_resetWith_program p font s hfit 1
    rw [fetch_below_end _ (by omega), hpc, h0, h1]
  · rw [Reset.resetWith_too_large p font s hlarge]
    rfl

/-! ### Registers -/

/-- The default font is what memory reads as where nothing is listed (log 3), so loading it lists nothing. -/
theorem load_fontDefault : Memory.load 0 Config.fontDefault.toList [] = [] := by
  refine Memory.ext_read (wf_font _) (lo := 0) rfl fun a => ?_
  rw [read_font, Memory.read_nil]
  split <;> rfl

/-- Settles O24: a program that fits changes memory alone, and the default font changes not even that. -/
theorem resetRegisters : Obligations.ResetRegisters := by
  refine ⟨fun p font program s t hfit ht => ?_, ?_⟩
  · rw [← ht, Reset.resetWith_fits p font s hfit]
    refine ⟨fun r => ?_, rfl, rfl, rfl, fun k => ?_, rfl, rfl, Display.pixel_blank, rfl, rfl, rfl, rfl⟩
    · simp [State.reg, State.reset]
    · simp [State.reset]
  · rw [Reset.resetWith_fits _ _ _ (Nat.zero_le _), load_fontDefault]
    rfl

end Sys2Proof.Proofs.ResetImage
end
